-- ==== Sys2Proof/Word.lean ====
section
/-! DEFINITION. The word types of the CORE: Word, Byte and register numbers (spec/00_scope.md R5, R8). -/

namespace Sys2Proof

/-- "The machine's native 16-bit storage/arithmetic unit" (R15); `+`, `&&&`, `~~~` on it are modulo 2^16 (R8). -/
abbrev Word := BitVec 16

/-- A console or image byte (R214, R80). -/
abbrev Byte := BitVec 8

/-- The number of a general register R0-R7 (R31). -/
abbrev Reg := Fin 8

end Sys2Proof
end

