-- ==== Sys2Proof/Config.lean ====
section
/-! DEFINITION. The parameters the spec leaves open (spec/00_scope.md R6) and the free values of the model.
The values the model takes at reset stand in Machine/Params.lean. -/

namespace Sys2Proof

/-- `RESERVED_BITS_POLICY`: what a decoder does with bits the formats do not use (R96). -/
inductive ReservedBitsPolicy where
  | ignore
  | fault
  deriving DecidableEq, Repr

/-- The 16 opcodes of R92. -/
inductive Opcode where
  | br | add | ld | st | jsr | and | ldr | str | rti | not | ldi | sti | jmp | res | lea | trap
  deriving DecidableEq, Repr

/-- `OPCODE_MAP`: the opcode of each 4-bit value, entry `k` for value `k` (R6, R92, R97). -/
abbrev OpcodeMap := Vector Opcode 16

/-- The parameters of R6 that a cycle reads. State carries one such record and no step writes it, so a
statement about every state holds for every choice of the parameters (DESIGN CHOICE, safe: log 22). -/
structure Params where
  /-- `OPCODE_MAP` (R92) -/
  opcodeMap : OpcodeMap
  /-- `COND_NEG` (R36) -/
  condNeg : Word
  /-- `COND_ZRO` (R36) -/
  condZro : Word
  /-- `COND_POS` (R36) -/
  condPos : Word
  /-- `KBSR_ADDR` (R66) -/
  kbsrAddr : Word
  /-- `KBDR_ADDR` (R66) -/
  kbdrAddr : Word
  /-- `KBSR_READY`: KBSR after a poll that found a key (R65) -/
  kbsrReady : Word
  /-- `RESERVED_BITS_POLICY` (R96) -/
  reservedBits : ReservedBitsPolicy
  /-- `EOF_SENTINEL` (R211) -/
  eofSentinel : Word
  /-- `IN_PROMPT` (R205) -/
  inPrompt : List Byte
  /-- `HALT_NOTICE` (R207) -/
  haltNotice : List Byte
  /-- `TRAP_STRING_READ_POLLS` (R210) -/
  stringReadPolls : Bool
  /-- `EXIT_CODE_FAULT` (R251): a non-zero exit code -/
  exitCodeFault : Nat
  deriving DecidableEq, Repr

namespace Config

/-- Free value: the OPEN text of `IN_PROMPT` (R6, D14). DESIGN CHOICE, safe: log 14. -/
opaque inPrompt : List Byte

/-- Free value: the OPEN text of `HALT_NOTICE` (R6, D14). DESIGN CHOICE, safe: log 14. -/
opaque haltNotice : List Byte

/-- Free value: one less than the OPEN non-zero `EXIT_CODE_FAULT` (R6, D20). DESIGN CHOICE, safe: log 15. -/
opaque exitCodeFaultLessOne : Nat

/-- Free value: does the `n`-th unrecorded keyboard poll find a pending byte? R47 calls it "a free choice of the
console at each call (a draw)". DESIGN CHOICE, safe: log 9. -/
opaque pollDraw : Nat → Bool

end Config

end Sys2Proof
end

