-- ==== Sys2Proof/Syntax.lean ====
section
/-! DEFINITION. The instructions: one constructor per row of spec/opcode_table.json (26 rows). -/

namespace Sys2Proof

/-- One decoded instruction. The fields are those of spec/30_encoding.md R93. The bits a format does not use (R96)
are kept as the `unused` fields, so that decoding drops no bit and both values of `RESERVED_BITS_POLICY` can be
modelled. The seven rows the table lists as other names of JMP and TRAP Words have constructors of their own
(DESIGN CHOICE, safe: log 21); WellFormed says which Word is whose. -/
inductive Instr where
  /-- ADD, register mode (R120); unused = bits 4:3 -/
  | addReg (dr sr1 sr2 : Reg) (unused : BitVec 2)
  /-- ADD, immediate mode (R121) -/
  | addImm (dr sr1 : Reg) (imm5 : BitVec 5)
  /-- AND, register mode (R122); unused = bits 4:3 -/
  | andReg (dr sr1 sr2 : Reg) (unused : BitVec 2)
  /-- AND, immediate mode (R123) -/
  | andImm (dr sr1 : Reg) (imm5 : BitVec 5)
  /-- NOT (R124); unused = bits 5:0 -/
  | not (dr sr1 : Reg) (unused : BitVec 6)
  /-- BR (R140) -/
  | br (n z p : Bool) (off9 : BitVec 9)
  /-- JMP (R141); unused = bits 11:9 and 5:0; every Word of opcode 0xC but 0xC1C0 -/
  | jmp (unusedHi : BitVec 3) (base : Reg) (unusedLo : BitVec 6)
  /-- RET, the Word 0xC1C0 (R141, R102) -/
  | ret
  /-- JSR (R142) -/
  | jsr (off11 : BitVec 11)
  /-- JSRR (R143); unused = bits 10:9 and 5:0 -/
  | jsrr (unusedHi : BitVec 2) (base : Reg) (unusedLo : BitVec 6)
  /-- LD (R160) -/
  | ld (dr : Reg) (off9 : BitVec 9)
  /-- LDI (R161) -/
  | ldi (dr : Reg) (off9 : BitVec 9)
  /-- LDR (R162) -/
  | ldr (dr base : Reg) (off6 : BitVec 6)
  /-- LEA (R163) -/
  | lea (dr : Reg) (off9 : BitVec 9)
  /-- ST (R180) -/
  | st (sr : Reg) (off9 : BitVec 9)
  /-- STI (R181) -/
  | sti (sr : Reg) (off9 : BitVec 9)
  /-- STR (R182) -/
  | str (sr base : Reg) (off6 : BitVec 6)
  /-- TRAP with a vector outside 0x20-0x25 (R200, R208); unused = bits 11:8, here and in the six routines -/
  | trap (unused : BitVec 4) (vect : BitVec 8)
  /-- TRAP x20 (R202) -/
  | getc (unused : BitVec 4)
  /-- TRAP x21 (R203) -/
  | out (unused : BitVec 4)
  /-- TRAP x22 (R204) -/
  | puts (unused : BitVec 4)
  /-- TRAP x23 (R205), the table's IN -/
  | inp (unused : BitVec 4)
  /-- TRAP x24 (R206) -/
  | putsp (unused : BitVec 4)
  /-- TRAP x25 (R207) -/
  | halt (unused : BitVec 4)
  /-- RTI (R240); unused = bits 11:0 -/
  | rti (unused : BitVec 12)
  /-- RES (R241); unused = bits 11:0 -/
  | res (unused : BitVec 12)
  deriving DecidableEq, Repr

end Sys2Proof
end

