-- ==== Sys2Proof/WellFormed.lean ====
section
/-! DEFINITION. Which terms of `Instr` stand for a Word: those that the decoder answers. -/

namespace Sys2Proof

/-- Is `vect` one of the six defined trap vectors (spec/44_trap.md R201)? -/
def definedVector (vect : BitVec 8) : Bool :=
  vect == 0x20#8 || vect == 0x21#8 || vect == 0x22#8 || vect == 0x23#8 || vect == 0x24#8 || vect == 0x25#8

/-- A `trap` with one of the six defined vectors is written as its routine's constructor, and the JMP whose Word is
0xC1C0 is written `ret`; every other term is well formed (R98, R99: every field value is an encoding). -/
def Instr.wellFormed : Instr → Bool
  | .jmp unusedHi base unusedLo => !(unusedHi == 0#3 && base == 7 && unusedLo == 0#6)
  | .trap _ vect => !definedVector vect
  | .addReg _ _ _ _ | .addImm _ _ _ | .andReg _ _ _ _ | .andImm _ _ _ | .not _ _ _ => true
  | .br _ _ _ _ | .ret | .jsr _ | .jsrr _ _ _ => true
  | .ld _ _ | .ldi _ _ | .ldr _ _ _ | .lea _ _ | .st _ _ | .sti _ _ | .str _ _ _ => true
  | .getc _ | .out _ | .puts _ | .inp _ | .putsp _ | .halt _ => true
  | .rti _ | .res _ => true

end Sys2Proof
end

