-- ==== Sys2Proof/Decode.lean ====
section
/-! DEFINITION. Decoding (spec/30_encoding.md R90-R104): total on Words; then the encoder; then the unused bits. -/

namespace Sys2Proof

/-- The spec's value of `OPCODE_MAP`, the numbering of R92. PRESUMED (the spec marks it from general knowledge), unsafe:
log 1. -/
def standardOpcodeMap : OpcodeMap :=
  #v[.br, .add, .ld, .st, .jsr, .and, .ldr, .str, .rti, .not, .ldi, .sti, .jmp, .res, .lea, .trap]

/-- `OPCODE_MAP[op]` of R97. -/
def OpcodeMap.opcode (m : OpcodeMap) (op : BitVec 4) : Opcode := m[op.toFin]

/-- The 4-bit value that the map gives an opcode (R6), the least where it gives several. -/
def OpcodeMap.value (m : OpcodeMap) (o : Opcode) : BitVec 4 := BitVec.ofNat 4 (m.toList.idxOf o)

/-- A map that R6 and R92 allow: no two values have the same opcode, so that each of the 16 opcodes has one value. -/
abbrev OpcodeMap.Legal (m : OpcodeMap) : Prop := m.toList.Nodup

/-- The opcode a Word selects: bits 15:12 looked up in the map (R91, R97). -/
def opcodeOf (m : OpcodeMap) (w : Word) : Opcode := m.opcode (w.extractLsb' 12 4)

/-- The 3-bit register field of `w` whose lowest bit is bit `lo` (R93). -/
def regField (w : Word) (lo : Nat) : Reg := (w.extractLsb' lo 3).toFin

/-- The instruction that a TRAP Word with these fields is: R201 by the vector. -/
def decodeTrap (unused : BitVec 4) (vect : BitVec 8) : Instr :=
  if vect = 0x20#8 then .getc unused
  else if vect = 0x21#8 then .out unused
  else if vect = 0x22#8 then .puts unused
  else if vect = 0x23#8 then .inp unused
  else if vect = 0x24#8 then .putsp unused
  else if vect = 0x25#8 then .halt unused
  else .trap unused vect

/-- The instruction that a Word of opcode 0xC is: RET is the Word 0xC1C0, the others are JMP (R141, R102). -/
def decodeJmp (unusedHi : BitVec 3) (base : Reg) (unusedLo : BitVec 6) : Instr :=
  if unusedHi = 0#3 ∧ base = 7 ∧ unusedLo = 0#6 then .ret else .jmp unusedHi base unusedLo

/-- `Decode(instr)` of R104 under an `OPCODE_MAP`: total, every Word is exactly one instruction (R98). -/
def decode (m : OpcodeMap) (w : Word) : Instr :=
  match opcodeOf m w with
  | .br => .br (w.getLsbD 11) (w.getLsbD 10) (w.getLsbD 9) (w.extractLsb' 0 9)
  | .add =>
    if w.getLsbD 5 then .addImm (regField w 9) (regField w 6) (w.extractLsb' 0 5)
    else .addReg (regField w 9) (regField w 6) (regField w 0) (w.extractLsb' 3 2)
  | .ld => .ld (regField w 9) (w.extractLsb' 0 9)
  | .st => .st (regField w 9) (w.extractLsb' 0 9)
  | .jsr =>
    if w.getLsbD 11 then .jsr (w.extractLsb' 0 11)
    else .jsrr (w.extractLsb' 9 2) (regField w 6) (w.extractLsb' 0 6)
  | .and =>
    if w.getLsbD 5 then .andImm (regField w 9) (regField w 6) (w.extractLsb' 0 5)
    else .andReg (regField w 9) (regField w 6) (regField w 0) (w.extractLsb' 3 2)
  | .ldr => .ldr (regField w 9) (regField w 6) (w.extractLsb' 0 6)
  | .str => .str (regField w 9) (regField w 6) (w.extractLsb' 0 6)
  | .rti => .rti (w.extractLsb' 0 12)
  | .not => .not (regField w 9) (regField w 6) (w.extractLsb' 0 6)
  | .ldi => .ldi (regField w 9) (w.extractLsb' 0 9)
  | .sti => .sti (regField w 9) (w.extractLsb' 0 9)
  | .jmp => decodeJmp (w.extractLsb' 9 3) (regField w 6) (w.extractLsb' 0 6)
  | .res => .res (w.extractLsb' 0 12)
  | .lea => .lea (regField w 9) (w.extractLsb' 0 9)
  | .trap => decodeTrap (w.extractLsb' 8 4) (w.extractLsb' 0 8)

/-- The decoder over the opcode table's numbering: an instruction is exactly one 16-bit Word, with no longer and no
shorter forms (R90), so a row of another size, or a number that is no Word, is refused. The table's numbering of the
opcodes is R92's. -/
def decodeTableWord (nbits w : Nat) : Option Instr :=
  if nbits = 16 ∧ w < 2 ^ 16 then some (decode standardOpcodeMap (BitVec.ofNat 16 w)) else none

/-- The three bits of a register field. -/
def regBits (r : Reg) : BitVec 3 := BitVec.ofFin r

/-- A field's bits at the place whose lowest bit is bit `lo` (R93), the rest zero. -/
def place {n : Nat} (lo : Nat) (v : BitVec n) : Word := v.setWidth 16 <<< lo

/-- The Word of an instruction under an `OPCODE_MAP`, each format written out from R93: the opcode's value at bit 12, then
the fields. -/
def encode (m : OpcodeMap) : Instr → Word
  | .addReg dr sr1 sr2 unused =>
    place 12 (m.value .add) ||| place 9 (regBits dr) ||| place 6 (regBits sr1) ||| place 3 unused ||| place 0 (regBits sr2)
  | .addImm dr sr1 imm5 =>
    place 12 (m.value .add) ||| place 9 (regBits dr) ||| place 6 (regBits sr1) ||| place 5 1#1 ||| place 0 imm5
  | .andReg dr sr1 sr2 unused =>
    place 12 (m.value .and) ||| place 9 (regBits dr) ||| place 6 (regBits sr1) ||| place 3 unused ||| place 0 (regBits sr2)
  | .andImm dr sr1 imm5 =>
    place 12 (m.value .and) ||| place 9 (regBits dr) ||| place 6 (regBits sr1) ||| place 5 1#1 ||| place 0 imm5
  | .not dr sr1 unused => place 12 (m.value .not) ||| place 9 (regBits dr) ||| place 6 (regBits sr1) ||| place 0 unused
  | .br n z p off9 =>
    place 12 (m.value .br) ||| place 11 (BitVec.ofBool n) ||| place 10 (BitVec.ofBool z) ||| place 9 (BitVec.ofBool p) |||
      place 0 off9
  | .jmp unusedHi base unusedLo =>
    place 12 (m.value .jmp) ||| place 9 unusedHi ||| place 6 (regBits base) ||| place 0 unusedLo
  | .ret => place 12 (m.value .jmp) ||| place 6 0b111#3
  | .jsr off11 => place 12 (m.value .jsr) ||| place 11 1#1 ||| place 0 off11
  | .jsrr unusedHi base unusedLo =>
    place 12 (m.value .jsr) ||| place 9 unusedHi ||| place 6 (regBits base) ||| place 0 unusedLo
  | .ld dr off9 => place 12 (m.value .ld) ||| place 9 (regBits dr) ||| place 0 off9
  | .ldi dr off9 => place 12 (m.value .ldi) ||| place 9 (regBits dr) ||| place 0 off9
  | .ldr dr base off6 => place 12 (m.value .ldr) ||| place 9 (regBits dr) ||| place 6 (regBits base) ||| place 0 off6
  | .lea dr off9 => place 12 (m.value .lea) ||| place 9 (regBits dr) ||| place 0 off9
  | .st sr off9 => place 12 (m.value .st) ||| place 9 (regBits sr) ||| place 0 off9
  | .sti sr off9 => place 12 (m.value .sti) ||| place 9 (regBits sr) ||| place 0 off9
  | .str sr base off6 => place 12 (m.value .str) ||| place 9 (regBits sr) ||| place 6 (regBits base) ||| place 0 off6
  | .trap unused vect => place 12 (m.value .trap) ||| place 8 unused ||| place 0 vect
  | .getc unused => place 12 (m.value .trap) ||| place 8 unused ||| place 0 0x20#8
  | .out unused => place 12 (m.value .trap) ||| place 8 unused ||| place 0 0x21#8
  | .puts unused => place 12 (m.value .trap) ||| place 8 unused ||| place 0 0x22#8
  | .inp unused => place 12 (m.value .trap) ||| place 8 unused ||| place 0 0x23#8
  | .putsp unused => place 12 (m.value .trap) ||| place 8 unused ||| place 0 0x24#8
  | .halt unused => place 12 (m.value .trap) ||| place 8 unused ||| place 0 0x25#8
  | .rti unused => place 12 (m.value .rti) ||| place 0 unused
  | .res unused => place 12 (m.value .res) ||| place 0 unused

/-- The instruction with its unused bits at their standard values (R96): 0, but 0b111111 for NOT. -/
def Instr.standardized : Instr → Instr
  | .addReg dr sr1 sr2 _ => .addReg dr sr1 sr2 0#2
  | .andReg dr sr1 sr2 _ => .andReg dr sr1 sr2 0#2
  | .not dr sr1 _ => .not dr sr1 0b111111#6
  | .jmp _ base _ => .jmp 0#3 base 0#6
  | .jsrr _ base _ => .jsrr 0#2 base 0#6
  | .trap _ vect => .trap 0#4 vect
  | .getc _ => .getc 0#4
  | .out _ => .out 0#4
  | .puts _ => .puts 0#4
  | .inp _ => .inp 0#4
  | .putsp _ => .putsp 0#4
  | .halt _ => .halt 0#4
  | .addImm dr sr1 imm5 => .addImm dr sr1 imm5
  | .andImm dr sr1 imm5 => .andImm dr sr1 imm5
  | .br n z p off9 => .br n z p off9
  | .ret => .ret
  | .jsr off11 => .jsr off11
  | .ld dr off9 => .ld dr off9
  | .ldi dr off9 => .ldi dr off9
  | .ldr dr base off6 => .ldr dr base off6
  | .lea dr off9 => .lea dr off9
  | .st sr off9 => .st sr off9
  | .sti sr off9 => .sti sr off9
  | .str sr base off6 => .str sr base off6
  | .rti unused => .rti unused
  | .res unused => .res unused

/-- Are the unused bits at their standard values? RTI and RES are not checked: they "are invalid whatever their bits
hold" (R96, R97). -/
def Instr.standardBits (i : Instr) : Bool := i == i.standardized

end Sys2Proof
end

