-- ==== Sys2Proof/Machine/Params.lean ====
section
/-! DEFINITION. The parameter values the machine has at reset: the "spec's value" column of spec/00_scope.md R6. -/

namespace Sys2Proof

/-- The parameters at the spec's values (R6). The opcode numbering is PRESUMED, unsafe: log 1; so are the values of NEG and
POS, ZRO's being the source's: log 2. The keyboard addresses and the ready value are PRESUMED (the spec marks
them from general knowledge), unsafe: log 8. Policy, sentinel and string reads are the spec's decisions: logs 16, 17,
18. The two texts and the exit code are OPEN, free values of Config: logs 14, 15. -/
def Params.spec : Params where
  opcodeMap := standardOpcodeMap
  condNeg := 0x0004#16
  condZro := 0x0002#16
  condPos := 0x0001#16
  kbsrAddr := 0xFE00#16
  kbdrAddr := 0xFE02#16
  kbsrReady := 0x8000#16
  reservedBits := .ignore
  eofSentinel := 0x0000#16
  inPrompt := Config.inPrompt
  haltNotice := Config.haltNotice
  stringReadPolls := false
  exitCodeFault := Config.exitCodeFaultLessOne + 1

end Sys2Proof
end

