-- ==== Sys2Proof/Machine/State.lean ====
section
/-! DEFINITION. The state of the CORE as plain data (spec/10_state.md), the reasons a step can stop, and reset. -/

namespace Sys2Proof.Machine

/-- A named Word slot of the register file with its mark "has been written since reset" (R30, R33, R39, R43(b)). The
value counts only under a set mark: a read under a clear mark raises the spec's fault (DEDUCED, safe: log 26). -/
structure Slot where
  value : Word
  written : Bool
  deriving DecidableEq, Repr

/-- Why the engine is HALTED, with the record of R41 and R251. -/
inductive HaltReason where
  /-- TRAP HALT, the normal end (R207) -/
  | haltTrap
  /-- RTI or RES at `addr` (R240, R241) -/
  | invalidOpcode (addr : Word) (opcode : BitVec 4)
  /-- TRAP at `addr` with a vector outside 0x20-0x25 (R208) -/
  | unhandledTrap (addr : Word) (vector : BitVec 8)
  /-- the host's external interrupt signal (R50) -/
  | aborted
  deriving DecidableEq, Repr

/-- The kinds of the spec's FAULTED state (R42). They are engine states the machine enters, not stops of the model. -/
inductive FaultKind where
  | unwrittenRegister (i : Reg)
  | unsetCond
  | reservedBits
  deriving DecidableEq, Repr

/-- The engine state (R41, R42, R49); FAULTED records the kind and the address of the instruction. -/
inductive Engine where
  | running
  | halted (reason : HaltReason)
  | faulted (kind : FaultKind) (addr : Word)
  deriving DecidableEq, Repr

/-- The cycle in progress between two steps. A cycle ends within its step unless it waits for the console in GETC or
IN (R45, R209) or scans a string whose terminator it has not met (R213); then the following steps go on with it.
DESIGN CHOICE, safe: logs 11 and 12. -/
inductive Phase where
  /-- between two cycles -/
  | idle
  /-- waiting in GETC -/
  | getc
  /-- waiting in IN, the prompt put -/
  | inp
  /-- inside PUTS, the next string address to read -/
  | puts (p : Word)
  /-- inside PUTSP, the next string address to read -/
  | putsp (p : Word)
  deriving DecidableEq, Repr

/-- The CORE's view of the console (R47, R48). -/
structure Console where
  /-- the host's input bytes not yet consumed, next first -/
  input : List Byte
  /-- the input ends after `input` (else the host may still add to it) -/
  inputEnded : Bool
  /-- recorded answers to the coming keyboard polls: does the poll find a pending byte? (log 9) -/
  polls : List Bool
  /-- the model's own: how many polls were answered by the free value `Config.pollDraw` (log 9) -/
  pollCount : Nat
  /-- the bytes put, oldest first -/
  output : List Byte
  /-- how many of them have been delivered by a flush (R48, R212) -/
  delivered : Nat
  deriving DecidableEq, Repr

/-- Memory as a list of (Word address, stored Word) in one canonical form, `Memory.wf` of Machine/Memory.lean. The
smallest addressable unit is the Word (R60: "there is no byte addressing"), so a cell holds a Word (log 7). -/
abbrev Memory := List (Nat × Word)

/-- The state of the CORE (R30, R41-R44, R47-R50). -/
structure State where
  /-- R0-R7 (R31) -/
  gpr : Vector Slot 8
  /-- the program counter (R34) -/
  pc : Word
  /-- the condition register (R36, R39) -/
  cond : Slot
  /-- the 65536 Words of memory, KBSR and KBDR among them (R44, R60) -/
  mem : Memory
  /-- RUNNING, HALTED or FAULTED (R41, R42) -/
  engine : Engine
  /-- the cycle in progress (R45, R209, R213) -/
  phase : Phase
  /-- console input and output (R47, R48) -/
  console : Console
  /-- the host's external interrupt signal is raised (R50) -/
  abortSignal : Bool
  /-- the parameters of R6; no step writes them (log 22) -/
  params : Params
  deriving DecidableEq, Repr

/-- Why `step` stops. No instruction's meaning answers one of these: `step` alone raises them, in a state that admits
no further step (R254). -/
inductive Fault where
  /-- raised by `step` in a HALTED state; safe (log 20) -/
  | engineHalted
  /-- raised by `step` in a FAULTED state; safe (log 20) -/
  | engineFaulted
  deriving DecidableEq, Repr

/-- Why an instruction is refused. -/
inductive Refusal where
  /-- raised by an arm of `exec` that has no meaning yet (there is none left); safe -/
  | notModelled (mnemonic : String)
  deriving DecidableEq, Repr

/-- What executing an instruction, or a step, answers. -/
abbrev Result := Host.Outcome State Fault Refusal

/-- The console at the start of a run that the host has given nothing yet: nothing put (R52), no input so far and no
end of input (DESIGN CHOICE, unsafe: log 24). -/
def Console.fresh : Console where
  input := []
  inputEnded := false
  polls := []
  pollCount := 0
  output := []
  delivered := 0

/-- The machine right after reset, no image loaded (R52, R280): the engine RUNNING between two cycles, every memory
Word 0x0000, COND unset, nothing put on the console. R0-R7 take the parameter `GPR_INIT` of R33 with zeros (DESIGN
CHOICE, unsafe: log 3); the Word under COND's clear mark is zero (DESIGN CHOICE: log 4); `RESET_PC` is 0x3000
(DESIGN CHOICE, unsafe: log 5). -/
def State.reset : State where
  gpr := Vector.replicate 8 ⟨0x0000#16, true⟩
  pc := 0x3000#16
  cond := ⟨0x0000#16, false⟩
  mem := []
  engine := .running
  phase := .idle
  console := .fresh
  abortSignal := false
  params := .spec

end Sys2Proof.Machine
end

