-- ==== Sys2Proof/Machine/Flags.lean ====
section
/-! DEFINITION. The condition codes: the updater and the branch test (spec/10_state.md R36-R39,
spec/41_control.md R140). -/

namespace Sys2Proof.Machine

/-- The COND value that `SetCC(v)` stores (R36), one of the parameters `COND_NEG`, `COND_ZRO` and `COND_POS` of R6: it
depends on the 16-bit value alone (R127). -/
def condOf (p : Params) (v : Word) : Word :=
  if v.getLsbD 15 then p.condNeg else if v = 0x0000#16 then p.condZro else p.condPos

/-- The mask `nzp` of BR as a number: n = bit 2, z = bit 1, p = bit 0 (R140: `instr[11:9]`). -/
def nzpMask (n z p : Bool) : Word := (BitVec.ofBool n ++ BitVec.ofBool z ++ BitVec.ofBool p).setWidth 16

/-- Is a BR with this mask taken when COND holds `cond`? `(nzp & cond) != 0` (R140). -/
def branchTaken (n z p : Bool) (cond : Word) : Bool := nzpMask n z p &&& cond != 0x0000#16

end Sys2Proof.Machine
end

