-- ==== Sys2Proof/Machine/Memory.lean ====
section
/-! DEFINITION. Reading and writing one Word of memory, and its canonical form (spec/20_memory.md R60-R64, R76). -/

namespace Sys2Proof.Machine

/-- What an address that is not listed reads as: 0x0000 (R76). -/
def unlistedWord : Word := 0x0000#16

/-- The Word stored at address `a` (R60). -/
def Memory.read : Memory → Nat → Word
  | [], _ => unlistedWord
  | (b, v) :: rest, a => if a = b then v else Memory.read rest a

/-- The memory without an entry for `a`. -/
def Memory.erase : Memory → Nat → Memory
  | [], _ => []
  | (b, v) :: rest, a => if a = b then rest else (b, v) :: Memory.erase rest a

/-- The memory with the entry `(a, v)`, before the first larger address. -/
def Memory.insert : Memory → Nat → Word → Memory
  | [], a, v => [(a, v)]
  | (b, w) :: rest, a, v =>
    if a < b then (a, v) :: (b, w) :: rest
    else if a = b then (a, v) :: rest
    else (b, w) :: Memory.insert rest a v

/-- Store `v` at `a` (R64). Storing what an unlisted address reads as removes the entry. -/
def Memory.write (m : Memory) (a : Nat) (v : Word) : Memory :=
  if v = unlistedWord then m.erase a else m.insert a v

/-- Canonical from `lo` on: addresses strictly rising, all at least `lo` and below 65536, no entry equal to an unlisted
Word. -/
def Memory.wfFrom : Nat → Memory → Bool
  | _, [] => true
  | lo, (a, v) :: rest => decide (lo ≤ a) && decide (a < 65536) && decide (v ≠ unlistedWord) && Memory.wfFrom (a + 1) rest

/-- The canonical form of a memory: equal memories are equal lists. -/
def Memory.wf (m : Memory) : Bool := Memory.wfFrom 0 m

end Sys2Proof.Machine
end

