-- ==== Sys2Proof/Machine/Operands.lean ====
section
/-! DEFINITION. Operand forms: sign extension, bytes of a Word, the addressing modes (spec/00_scope.md R9,
spec/30_encoding.md R94, spec/42_load.md R164). -/

namespace Sys2Proof.Machine

/-- `sext_N` (R9): the field's bits, and its top bit in every bit above. -/
def sext {n : Nat} (v : BitVec n) : Word := v.signExtend 16

/-- `zext_8` (R9, R202): a byte in bits 7:0, bits 15:8 zero. -/
def zext8 (b : Byte) : Word := b.setWidth 16

/-- Bits 7:0 of a Word (R71, R203). -/
def lowByte (v : Word) : Byte := v.extractLsb' 0 8

/-- Bits 15:8 of a Word (R206). -/
def highByte (v : Word) : Byte := v.extractLsb' 8 8

/-- The PC-relative address of LD, LDI, LEA, ST, STI and the target of BR: `pc1 + sext_9(PCoffset9)` modulo 2^16
(R164, R140), `pc1` being the PC after the fetch's increment (R34). -/
def pcRel9 (pc1 : Word) (off9 : BitVec 9) : Word := pc1 + sext off9

/-- The target of JSR: `pc1 + sext_11(PCoffset11)` modulo 2^16 (R142). -/
def pcRel11 (pc1 : Word) (off11 : BitVec 11) : Word := pc1 + sext off11

/-- The base plus offset address of LDR and STR: `x[BaseR] + sext_6(offset6)` modulo 2^16 (R164). -/
def baseOff6 (base : Word) (off6 : BitVec 6) : Word := base + sext off6

end Sys2Proof.Machine
end

