-- ==== Sys2Proof/Machine/Ops.lean ====
section
/-! DEFINITION. The shared operations over the state: registers, memory with the keyboard, the console, halting and
faulting, and the fetch. The meanings are written over these. -/

namespace Sys2Proof.Machine

/-! ### Halting and faulting (the CORE's only exceptions) -/

/-- Entry into HALTED or FAULTED (R252): the engine state changes and nothing else; every earlier effect of the
instruction is kept. There is no handler and no return (R254). -/
def State.enter (s : State) (e : Engine) : State := { s with engine := e }

/-- The address `a` of the instruction being executed: the PC already holds `a + 1` (R97), so `a = pc - 1` modulo 2^16. -/
def State.instrAddr (s : State) : Word := s.pc - 1#16

/-- `raise Halt(reason)` (R13, R41). -/
def State.raiseHalt (s : State) (reason : HaltReason) : Result := .next (s.enter (.halted reason))

/-- `raise Fault(kind)` (R13, R42): records the kind and the instruction's address. -/
def State.raiseFault (s : State) (kind : FaultKind) : Result := .next (s.enter (.faulted kind s.instrAddr))

/-! ### Registers -/

/-- `x[i]` (R10): go on with the register's value, or raise `Fault(UnwrittenRegister(i))` when nothing has written it
(R33). -/
def State.readReg (s : State) (i : Reg) (k : Word → Result) : Result :=
  if s.gpr[i].written then k s.gpr[i].value else s.raiseFault (.unwrittenRegister i)

/-- `x[i] <- v` (R10): the register holds `v` and is written from now on (R33). -/
def State.writeReg (s : State) (i : Reg) (v : Word) : State := { s with gpr := s.gpr.set i ⟨v, true⟩ }

/-- `pc <- target` (R10). -/
def State.setPc (s : State) (target : Word) : State := { s with pc := target }

/-- `SetCC(v)` (R36): COND is set from now on (R39). -/
def State.setCC (s : State) (v : Word) : State := { s with cond := ⟨condOf s.params v, true⟩ }

/-- The common end of the flag-setting instructions: `x[DR] <- v; SetCC(v)` (R37). -/
def State.writeResult (s : State) (dr : Reg) (v : Word) : State := (s.writeReg dr v).setCC v

/-! ### The console -/

/-- The console's answer to a poll: the next recorded one, else the next free draw (R47; log 9). -/
def Console.drawPoll (c : Console) : Bool × Console :=
  match c.polls with
  | answer :: rest => (answer, { c with polls := rest })
  | [] => (Config.pollDraw c.pollCount, { c with pollCount := c.pollCount + 1 })

/-- `ConsolePoll()` (R12, R47): a pending byte, consumed, or none; none when there is no byte (log 10). -/
def Console.poll (c : Console) : Option Byte × Console :=
  match c.drawPoll.1, c.drawPoll.2.input with
  | true, b :: rest => (some b, { c.drawPoll.2 with input := rest })
  | _, _ => (none, c.drawPoll.2)

/-- What `ConsoleGetc` finds (R12, R47). -/
inductive Answer where
  /-- `Byte(b)` -/
  | byte (b : Byte)
  /-- end of input -/
  | eof
  /-- the host has not answered yet: the cycle waits (R209) -/
  | waiting
  deriving DecidableEq, Repr

/-- `ConsoleGetc` (R12, R47): the next byte, consumed; or end of input; or no answer yet. -/
def Console.getc (c : Console) : Answer × Console :=
  match c.input with
  | b :: rest => (.byte b, { c with input := rest })
  | [] => if c.inputEnded then (.eof, c) else (.waiting, c)

/-- `ConsolePut` of each byte in order (R12, R48). -/
def Console.put (c : Console) (bytes : List Byte) : Console := { c with output := c.output ++ bytes }

/-- `ConsoleFlush()` (R12, R48): every byte put is delivered. -/
def Console.flush (c : Console) : Console := { c with delivered := c.output.length }

/-- The state with another console. -/
def State.withConsole (s : State) (c : Console) : State := { s with console := c }

/-- `ConsolePut` of each byte in order. -/
def State.put (s : State) (bytes : List Byte) : State := s.withConsole (s.console.put bytes)

/-- `ConsoleFlush()`. -/
def State.flush (s : State) : State := s.withConsole s.console.flush

/-- The state with another cycle in progress (R45). -/
def State.setPhase (s : State) (p : Phase) : State := { s with phase := p }

/-! ### Memory -/

/-- `MemPeek(a)` (R63): the stored Word, no side effect. -/
def State.memPeek (s : State) (a : Word) : Word := s.mem.read a.toNat

/-- `MemWrite(a, 1, v)` (R64): unconditional, no other side effect, at every address. -/
def State.memWrite (s : State) (a : Word) (v : Word) : State := { s with mem := s.mem.write a.toNat v }

/-- `KbdPoll()` (R65): a key sets KBSR to `KBSR_READY` and KBDR to the byte; none sets KBSR to 0 and leaves KBDR. -/
def State.kbdPoll (s : State) : State :=
  match s.console.poll with
  | (some b, c) => ((s.withConsole c).memWrite s.params.kbsrAddr s.params.kbsrReady).memWrite s.params.kbdrAddr (zext8 b)
  | (none, c) => (s.withConsole c).memWrite s.params.kbsrAddr 0x0000#16

/-- The side effect of a `MemRead` at `a`: a poll at `KBSR_ADDR`, else none (R62, R73). -/
def State.touch (s : State) (a : Word) : State := if a = s.params.kbsrAddr then s.kbdPoll else s

/-- `MemRead(a, 1)` (R62): poll first where `a` is `KBSR_ADDR`, then the (updated) stored Word; with the state after. -/
def State.memRead (s : State) (a : Word) : Word × State := ((s.touch a).memPeek a, s.touch a)

/-- `StrRead(p)` of PUTS and PUTSP (R210): a peek, or a read under `TRAP_STRING_READ_POLLS`. -/
def State.strRead (s : State) (p : Word) : Word × State :=
  if s.params.stringReadPolls then s.memRead p else (s.memPeek p, s)

/-! ### The fetch -/

/-- The fetch of R97: `instr <- MemRead(pc, 1)`, then `pc <- pc + 1` modulo 2^16; the Word and the state after. -/
def State.fetch (s : State) : Word × State := ((s.memRead s.pc).1, (s.memRead s.pc).2.setPc (s.pc + 1#16))

/-- Does the reserved-bits check of R97 stop this instruction? -/
def State.reservedBitsStop (s : State) (i : Instr) : Bool := s.params.reservedBits == .fault && !i.standardBits

end Sys2Proof.Machine
end

