-- ==== Sys2Proof/Machine/Control.lean ====
section
/-! DEFINITION. BR, JMP, RET, JSR, JSRR (spec/41_control.md R140-R146). `s.pc` is `pc1`, the instruction's address plus
one. -/

namespace Sys2Proof.Machine

/-- BR (R140): a zero mask reads nothing; else COND must be set; the PC changes when the mask meets COND. -/
def execBr (n z p : Bool) (off9 : BitVec 9) (s : State) : Result :=
  if n || z || p then
    if s.cond.written then
      .next (if branchTaken n z p s.cond.value then s.setPc (pcRel9 s.pc off9) else s)
    else s.raiseFault .unsetCond
  else .next s

/-- JMP (R141). -/
def execJmp (base : Reg) (s : State) : Result := s.readReg base fun target => .next (s.setPc target)

/-- RET (R141): "JMP with base=R7, no special-case needed". -/
def execRet (s : State) : Result := s.readReg 7 fun target => .next (s.setPc target)

/-- JSR (R142). -/
def execJsr (off11 : BitVec 11) (s : State) : Result := .next ((s.writeReg 7 s.pc).setPc (pcRel11 s.pc off11))

/-- JSRR (R143): R7 is written first, then BaseR is read. -/
def execJsrr (base : Reg) (s : State) : Result :=
  (s.writeReg 7 s.pc).readReg base fun target => .next ((s.writeReg 7 s.pc).setPc target)

end Sys2Proof.Machine
end

