-- ==== Sys2Proof/Machine/Load.lean ====
section
/-! DEFINITION. LD, LDI, LDR, LEA (spec/42_load.md R160-R164). `s.pc` is `pc1`, the instruction's address plus one. -/

namespace Sys2Proof.Machine

/-- The common end of the loads: `v <- MemRead(a, 1); x[DR] <- v; SetCC(v)`. -/
def State.loadInto (s : State) (dr : Reg) (a : Word) : State := (s.memRead a).2.writeResult dr (s.memRead a).1

/-- LD (R160). -/
def execLd (dr : Reg) (off9 : BitVec 9) (s : State) : Result := .next (s.loadInto dr (pcRel9 s.pc off9))

/-- LDI (R161): the pointer read first, then the data read, each of which may poll. -/
def execLdi (dr : Reg) (off9 : BitVec 9) (s : State) : Result :=
  .next ((s.memRead (pcRel9 s.pc off9)).2.loadInto dr (s.memRead (pcRel9 s.pc off9)).1)

/-- LDR (R162): the base is read before DR is written. -/
def execLdr (dr base : Reg) (off6 : BitVec 6) (s : State) : Result :=
  s.readReg base fun x => .next (s.loadInto dr (baseOff6 x off6))

/-- LEA (R163): the address itself, no memory access; it sets COND. -/
def execLea (dr : Reg) (off9 : BitVec 9) (s : State) : Result := .next (s.writeResult dr (pcRel9 s.pc off9))

end Sys2Proof.Machine
end

