-- ==== Sys2Proof/Machine/Operate.lean ====
section
/-! DEFINITION. ADD, AND, NOT (spec/40_operate.md R120-R127). Each runs after the fetch: `s.pc` is the instruction's
address plus one. -/

namespace Sys2Proof.Machine

/-- ADD, register mode (R120): SR1 is read first. -/
def execAddReg (dr sr1 sr2 : Reg) (s : State) : Result :=
  s.readReg sr1 fun x => s.readReg sr2 fun y => .next (s.writeResult dr (x + y))

/-- ADD, immediate mode (R121). -/
def execAddImm (dr sr1 : Reg) (imm5 : BitVec 5) (s : State) : Result :=
  s.readReg sr1 fun x => .next (s.writeResult dr (x + sext imm5))

/-- AND, register mode (R122). -/
def execAndReg (dr sr1 sr2 : Reg) (s : State) : Result :=
  s.readReg sr1 fun x => s.readReg sr2 fun y => .next (s.writeResult dr (x &&& y))

/-- AND, immediate mode (R123). -/
def execAndImm (dr sr1 : Reg) (imm5 : BitVec 5) (s : State) : Result :=
  s.readReg sr1 fun x => .next (s.writeResult dr (x &&& sext imm5))

/-- NOT (R124). -/
def execNot (dr sr1 : Reg) (s : State) : Result :=
  s.readReg sr1 fun x => .next (s.writeResult dr (~~~x))

end Sys2Proof.Machine
end

