-- ==== Sys2Proof/Machine/Reserved.lean ====
section
/-! DEFINITION. RTI and RES, the invalid opcodes (spec/45_reserved.md R240, R241). -/

namespace Sys2Proof.Machine

/-- RTI (R240): `raise Halt(InvalidOpcode(a, op))` with RTI's value in the opcode map, 0x8 in R92's. -/
def execRti (s : State) : Result := s.raiseHalt (.invalidOpcode s.instrAddr (s.params.opcodeMap.value .rti))

/-- RES (R241): `raise Halt(InvalidOpcode(a, op))` with RES's value in the opcode map, 0xD in R92's. -/
def execRes (s : State) : Result := s.raiseHalt (.invalidOpcode s.instrAddr (s.params.opcodeMap.value .res))

end Sys2Proof.Machine
end

