-- ==== Sys2Proof/Machine/Store.lean ====
section
/-! DEFINITION. ST, STI, STR (spec/43_store.md R180-R183). `s.pc` is `pc1`, the instruction's address plus one. -/

namespace Sys2Proof.Machine

/-- ST (R180). -/
def execSt (sr : Reg) (off9 : BitVec 9) (s : State) : Result :=
  s.readReg sr fun v => .next (s.memWrite (pcRel9 s.pc off9) v)

/-- STI (R181): SR first, then the pointer by a `MemRead`, which may poll, then the store. -/
def execSti (sr : Reg) (off9 : BitVec 9) (s : State) : Result :=
  s.readReg sr fun v =>
    .next ((s.memRead (pcRel9 s.pc off9)).2.memWrite (s.memRead (pcRel9 s.pc off9)).1 v)

/-- STR (R182): SR is read before BaseR. -/
def execStr (sr base : Reg) (off6 : BitVec 6) (s : State) : Result :=
  s.readReg sr fun v => s.readReg base fun x => .next (s.memWrite (baseOff6 x off6) v)

end Sys2Proof.Machine
end

