-- ==== Sys2Proof/Machine/Trap.lean ====
section
/-! DEFINITION. TRAP and the six service routines the CORE performs itself (spec/44_trap.md R200-R214). `s.pc` is
`pc1`, the instruction's address plus one; no routine writes the PC or COND. -/

namespace Sys2Proof.Machine

/-- What every TRAP does first: `x[7] <- pc1` (R200). -/
def State.link (s : State) : State := s.writeReg 7 s.pc

/-! ### Console input: GETC and IN -/

/-- `ConsoleGetc` and what GETC and IN do with its answer (R202, R205, R211): a byte goes to R0, echoed by IN; end of
input gives `EOF_SENTINEL`, not echoed; with no answer yet the cycle waits as `wait` and nothing else changes (R209). -/
def State.takeInput (s : State) (echo : Bool) (wait : Phase) : State :=
  match s.console.getc with
  | (.byte b, c) =>
    let t := (s.withConsole c).setPhase .idle
    (if echo then (t.put [b]).flush else t).writeReg 0 (zext8 b)
  | (.eof, c) => ((s.withConsole c).setPhase .idle).writeReg 0 s.params.eofSentinel
  | (.waiting, _) => s.setPhase wait

/-- GETC, or the rest of a waiting one (R202). -/
def State.getcRoutine (s : State) : State := s.takeInput false .getc

/-- The part of IN from its console read on (R205). -/
def State.inpRead (s : State) : State := s.takeInput true .inp

/-- IN (R205): the prompt is put and flushed before the CORE waits. -/
def State.inpRoutine (s : State) : State := ((s.put s.params.inPrompt).flush).inpRead

/-! ### Console output: OUT, PUTS, PUTSP, HALT -/

/-- OUT (R203). -/
def State.outRoutine (s : State) : Result := s.readReg 0 fun v => .next (s.put [lowByte v]).flush

/-- How a run of string reads ends: at the terminator, or still going with the next address. -/
inductive Scan where
  | ended (s : State)
  | going (p : Word) (s : State)
  deriving DecidableEq, Repr

/-- At most this many string reads in one step: one lap of the address space. A scan that goes on after it is a scan in
progress (R213). DESIGN CHOICE, safe: log 12. -/
def scanLap : Nat := 65536

/-- The loop of PUTS (R204), at most `n` reads. -/
def putsScan : Nat → Word → State → Scan
  | 0, p, s => .going p s
  | n + 1, p, s =>
    if (s.strRead p).1 = 0x0000#16 then .ended (s.strRead p).2
    else putsScan n (p + 1#16) ((s.strRead p).2.put [lowByte (s.strRead p).1])

/-- The loop of PUTSP (R206), at most `n` reads: it stops at the first zero byte, the low byte first. -/
def putspScan : Nat → Word → State → Scan
  | 0, p, s => .going p s
  | n + 1, p, s =>
    if lowByte (s.strRead p).1 = 0x00#8 then .ended (s.strRead p).2
    else if highByte (s.strRead p).1 = 0x00#8 then .ended ((s.strRead p).2.put [lowByte (s.strRead p).1])
    else putspScan n (p + 1#16) ((s.strRead p).2.put [lowByte (s.strRead p).1, highByte (s.strRead p).1])

/-- The state a run of string reads leaves: ended, the flush and the end of the cycle; going, the cycle in progress. -/
def Scan.finish (wait : Word → Phase) : Scan → State
  | .ended s => (s.setPhase .idle).flush
  | .going p s => s.setPhase (wait p)

/-- PUTS from string address `p` on (R204). -/
def State.putsFrom (s : State) (p : Word) : State := (putsScan scanLap p s).finish .puts

/-- PUTSP from string address `p` on (R206). -/
def State.putspFrom (s : State) (p : Word) : State := (putspScan scanLap p s).finish .putsp

/-- PUTS (R204). -/
def State.putsRoutine (s : State) : Result := s.readReg 0 fun p => .next (s.putsFrom p)

/-- PUTSP (R206). -/
def State.putspRoutine (s : State) : Result := s.readReg 0 fun p => .next (s.putspFrom p)

/-- HALT (R207): the notice, the flush, the halt. -/
def State.haltRoutine (s : State) : Result := (s.put s.params.haltNotice).flush.raiseHalt .haltTrap

/-- A vector outside 0x20-0x25 (R208). -/
def State.unhandledRoutine (s : State) (vect : BitVec 8) : Result := s.raiseHalt (.unhandledTrap s.instrAddr vect)

/-- The dispatch of R201 by the vector, after R7 is written. -/
def State.trapDispatch (s : State) (vect : BitVec 8) : Result :=
  if vect = 0x20#8 then .next s.getcRoutine
  else if vect = 0x21#8 then s.outRoutine
  else if vect = 0x22#8 then s.putsRoutine
  else if vect = 0x23#8 then .next s.inpRoutine
  else if vect = 0x24#8 then s.putspRoutine
  else if vect = 0x25#8 then s.haltRoutine
  else s.unhandledRoutine vect

/-! ### The meanings -/

/-- TRAP with any vector (R200, R201, R208). -/
def execTrap (vect : BitVec 8) (s : State) : Result := s.link.trapDispatch vect

/-- TRAP x20, GETC (R202). -/
def execGetc (s : State) : Result := .next s.link.getcRoutine

/-- TRAP x21, OUT (R203). -/
def execOut (s : State) : Result := s.link.outRoutine

/-- TRAP x22, PUTS (R204). -/
def execPuts (s : State) : Result := s.link.putsRoutine

/-- TRAP x23, IN (R205). -/
def execInp (s : State) : Result := .next s.link.inpRoutine

/-- TRAP x24, PUTSP (R206). -/
def execPutsp (s : State) : Result := s.link.putspRoutine

/-- TRAP x25, HALT (R207). -/
def execHalt (s : State) : Result := s.link.haltRoutine

end Sys2Proof.Machine
end

