-- ==== Sys2Proof/Machine/Dispatch.lean ====
section
/-! DEFINITION. The dispatch of spec/30_encoding.md R98: one arm per constructor of Instr. -/

namespace Sys2Proof.Machine

/-- Execute `i`, fetched and with the PC already incremented (R97). -/
def exec (i : Instr) (s : State) : Host.Outcome State Fault Refusal :=
  match i with
  | .addReg dr sr1 sr2 _ => Sys2Proof.Machine.execAddReg dr sr1 sr2 s
  | .addImm dr sr1 imm5 => Sys2Proof.Machine.execAddImm dr sr1 imm5 s
  | .andReg dr sr1 sr2 _ => Sys2Proof.Machine.execAndReg dr sr1 sr2 s
  | .andImm dr sr1 imm5 => Sys2Proof.Machine.execAndImm dr sr1 imm5 s
  | .not dr sr1 _ => Sys2Proof.Machine.execNot dr sr1 s
  | .br n z p off9 => Sys2Proof.Machine.execBr n z p off9 s
  | .jmp _ base _ => Sys2Proof.Machine.execJmp base s
  | .ret => Sys2Proof.Machine.execRet s
  | .jsr off11 => Sys2Proof.Machine.execJsr off11 s
  | .jsrr _ base _ => Sys2Proof.Machine.execJsrr base s
  | .ld dr off9 => Sys2Proof.Machine.execLd dr off9 s
  | .ldi dr off9 => Sys2Proof.Machine.execLdi dr off9 s
  | .ldr dr base off6 => Sys2Proof.Machine.execLdr dr base off6 s
  | .lea dr off9 => Sys2Proof.Machine.execLea dr off9 s
  | .st sr off9 => Sys2Proof.Machine.execSt sr off9 s
  | .sti sr off9 => Sys2Proof.Machine.execSti sr off9 s
  | .str sr base off6 => Sys2Proof.Machine.execStr sr base off6 s
  | .trap _ vect => Sys2Proof.Machine.execTrap vect s
  | .getc _ => Sys2Proof.Machine.execGetc s
  | .out _ => Sys2Proof.Machine.execOut s
  | .puts _ => Sys2Proof.Machine.execPuts s
  | .inp _ => Sys2Proof.Machine.execInp s
  | .putsp _ => Sys2Proof.Machine.execPutsp s
  | .halt _ => Sys2Proof.Machine.execHalt s
  | .rti _ => Sys2Proof.Machine.execRti s
  | .res _ => Sys2Proof.Machine.execRes s

end Sys2Proof.Machine
end

