-- ==== Sys2Proof/Machine/Step.lean ====
section
/-! DEFINITION. One step of the machine (spec/10_state.md R45, spec/30_encoding.md R97), and how a Word is placed where
the next step fetches it. -/

namespace Sys2Proof.Machine

/-- A whole cycle from its start (R97): fetch, PC increment, the reserved-bits check, dispatch. -/
def runCycle (s : State) : Host.Outcome State Fault Refusal :=
  if s.fetch.2.reservedBitsStop (decode s.params.opcodeMap s.fetch.1) then s.fetch.2.raiseFault .reservedBits
  else exec (decode s.params.opcodeMap s.fetch.1) s.fetch.2

/-- One step. HALTED and FAULTED admit none (R254). The host's abort is taken between two cycles and during a console
wait (R50, D21), and nowhere else. Otherwise a new cycle runs, or the cycle in progress goes on. -/
def step (s : State) : Host.Outcome State Fault Refusal :=
  match s.engine with
  | .halted _ => .fault .engineHalted
  | .faulted _ _ => .fault .engineFaulted
  | .running =>
    match s.phase with
    | .idle => if s.abortSignal then s.raiseHalt .aborted else runCycle s
    | .getc => if s.abortSignal then (s.setPhase .idle).raiseHalt .aborted else .next s.getcRoutine
    | .inp => if s.abortSignal then (s.setPhase .idle).raiseHalt .aborted else .next s.inpRead
    | .puts p => .next (s.putsFrom p)
    | .putsp p => .next (s.putspFrom p)

/-- Where `withFetchWord` stores: at the PC, but at the Word after it when the PC is `KBSR_ADDR`, whose fetch polls and
replaces whatever is stored (R62; log 27). -/
def State.fetchAddr (s : State) : Word := if s.pc = s.params.kbsrAddr then s.pc + 1#16 else s.pc

/-- `s` with the one-Word instruction `w` stored where the next step fetches, the engine RUNNING between two cycles and
no abort pending, so that the next step fetches and runs exactly it (log 5, log 27). -/
def State.withFetchWord (s : State) (_nbits w : Nat) : State :=
  { s with
    mem := s.mem.write s.fetchAddr.toNat (BitVec.ofNat 16 w)
    pc := s.fetchAddr
    engine := .running
    phase := .idle
    abortSignal := false }

end Sys2Proof.Machine
end

