-- ==== Sys2Proof/Machine/Loader.lean ====
section
/-! DEFINITION. The loader and the launch of a run (spec/20_memory.md R80-R82, spec/70_reset_and_hazards.md R280-R283,
spec/10_state.md R46, R52). -/

namespace Sys2Proof.Machine

/-- A program image: its origin Word and the Words that follow it (R80). -/
structure Image where
  origin : Word
  words : List Word
  deriving DecidableEq, Repr

/-- Why a launch is refused before any cycle (R82). -/
inductive LoadError where
  /-- the file has an odd number of bytes -/
  | oddLength
  /-- the file is shorter than two bytes -/
  | tooShort
  /-- an image would extend past address 0xFFFF -/
  | pastEnd
  deriving DecidableEq, Repr

/-- The big-endian Words of a file: byte `2j` is bits 15:8 and byte `2j + 1` bits 7:0 of Word `j` (R80); none for an odd
number of bytes. -/
def wordsOfBytes : List Byte → Option (List Word)
  | [] => some []
  | [_] => none
  | hi :: lo :: rest => (wordsOfBytes rest).map fun ws => (hi ++ lo) :: ws

/-- Read one image file (R80, R82). -/
def parseImage (file : List Byte) : Except LoadError Image :=
  match wordsOfBytes file with
  | none => .error .oddLength
  | some [] => .error .tooShort
  | some (origin :: words) => .ok ⟨origin, words⟩

/-- Does the image fit below address 0x10000 (R82)? -/
def Image.fits (img : Image) : Bool := img.origin.toNat + img.words.length ≤ 65536

/-- Plain stores of `ws` from address `a` up (R80: "they do not poll"). -/
def Memory.storeFrom (m : Memory) (a : Nat) : List Word → Memory
  | [] => m
  | w :: ws => (m.write a w).storeFrom (a + 1) ws

/-- Place the images in load order: a later image's Words stay (R81). An image that does not fit is a load error. -/
def Memory.loadImages (m : Memory) : List Image → Except LoadError Memory
  | [] => .ok m
  | img :: rest =>
    if img.fits then (m.storeFrom img.origin.toNat img.words).loadImages rest else .error .pastEnd

/-- What the host gives at the launch of a run (R46, R47, R51). -/
structure Launch where
  /-- the images, in load order -/
  images : List Image
  /-- `RESET_PC`: the image's origin, or the launch's choice with several images (R281) -/
  resetPc : Word
  /-- `GPR_INIT` (R33): none leaves every GPR unwritten -/
  gprInit : Option (Vector Word 8)
  /-- the host's input sequence, or what of it is known -/
  input : List Byte
  /-- the input ends there -/
  inputEnded : Bool
  /-- recorded answers to the first polls -/
  polls : List Bool
  deriving DecidableEq, Repr

/-- The registers at the start of the first cycle (R33, R52): unwritten, or written with `GPR_INIT`. -/
def initialGpr : Option (Vector Word 8) → Vector Slot 8
  | none => Vector.replicate 8 ⟨0x0000#16, false⟩
  | some init => init.map fun v => ⟨v, true⟩

/-- The reset sequence (R280): memory zeroed, the images placed or the launch refused, PC at `RESET_PC`, the GPRs as
`GPR_INIT` says, COND unset, the engine RUNNING; the state at the start of the first cycle (R52). -/
def launch (params : Params) (l : Launch) : Except LoadError State :=
  match Memory.loadImages [] l.images with
  | .error e => .error e
  | .ok mem => .ok
    { gpr := initialGpr l.gprInit
      pc := l.resetPc
      cond := ⟨0x0000#16, false⟩
      mem := mem
      engine := .running
      phase := .idle
      console := { Console.fresh with input := l.input, inputEnded := l.inputEnded, polls := l.polls }
      abortSignal := false
      params := params }

/-- The launch of a single image: `RESET_PC` is its origin (R281). -/
def launchImage (params : Params) (img : Image) (gprInit : Option (Vector Word 8)) (input : List Byte)
    (inputEnded : Bool) : Except LoadError State :=
  launch params ⟨[img], img.origin, gprInit, input, inputEnded, []⟩

end Sys2Proof.Machine
end

