-- ==== Sys2Proof/Machine/Status.lean ====
section
/-! DEFINITION. The status interface and the host's acts (spec/10_state.md R41, R47-R51, spec/60_exceptions.md R251). -/

namespace Sys2Proof.Machine

/-- The code of a halt reason on the status interface (R251). -/
def HaltReason.code : HaltReason → Nat
  | .haltTrap => 0
  | .invalidOpcode _ _ => 1
  | .unhandledTrap _ _ => 2
  | .aborted => 3

/-- The code of a fault kind on the status interface (R251). -/
def FaultKind.code : FaultKind → Nat
  | .unwrittenRegister _ => 0
  | .unsetCond => 1
  | .reservedBits => 2

/-- The process exit code of a halted machine (R41): 0 for HALT, `EXIT_CODE_FAULT` for a fatal halt, not set by the
CORE for an abort; none while the engine is not HALTED. -/
def State.exitCode (s : State) : Option Nat :=
  match s.engine with
  | .halted .haltTrap => some 0
  | .halted (.invalidOpcode _ _) => some s.params.exitCodeFault
  | .halted (.unhandledTrap _ _) => some s.params.exitCodeFault
  | .halted .aborted => none
  | .running => none
  | .faulted _ _ => none

/-- The host gives more input bytes, between two steps (R51); bytes given after the end of input are dropped (DESIGN
CHOICE, safe: log 19). -/
def State.hostInput (s : State) (bytes : List Byte) : State :=
  if s.console.inputEnded then s else { s with console := { s.console with input := s.console.input ++ bytes } }

/-- The host ends the input, between two steps (R51). -/
def State.hostEndInput (s : State) : State := { s with console := { s.console with inputEnded := true } }

/-- The host raises its abort signal, between two steps (R50). -/
def State.hostAbort (s : State) : State := { s with abortSignal := true }

end Sys2Proof.Machine
end

