-- ==== Sys2Proof/Safety.lean ====
section
/-! DEFINITION. What counts as a safe run, the invariant of the machine, and the read and write sets of the instructions
that the spec's tables give: the terms the statements use. -/

namespace Sys2Proof

/-! ### The spec's tables of reads and writes -/

/-- The register whose new value an instruction sets COND from: exactly ADD, AND, NOT, LD, LDI, LDR, LEA (R37). -/
def Instr.flagDest : Instr → Option Reg
  | .addReg dr _ _ _ | .addImm dr _ _ | .andReg dr _ _ _ | .andImm dr _ _ | .not dr _ _ => some dr
  | .ld dr _ | .ldi dr _ | .ldr dr _ _ | .lea dr _ => some dr
  | .br _ _ _ _ | .jmp _ _ _ | .ret | .jsr _ | .jsrr _ _ _ => none
  | .st _ _ | .sti _ _ | .str _ _ _ => none
  | .trap _ _ | .getc _ | .out _ | .puts _ | .inp _ | .putsp _ | .halt _ => none
  | .rti _ | .res _ => none

/-- The column "reads" of R31. -/
def Instr.gprReads : Instr → List Reg
  | .addReg _ sr1 sr2 _ | .andReg _ sr1 sr2 _ => [sr1, sr2]
  | .addImm _ sr1 _ | .andImm _ sr1 _ | .not _ sr1 _ => [sr1]
  | .jmp _ base _ | .jsrr _ base _ | .ldr _ base _ => [base]
  | .ret => [7]
  | .st sr _ | .sti sr _ => [sr]
  | .str sr base _ => [sr, base]
  | .out _ | .puts _ | .putsp _ => [0]
  | .br _ _ _ _ | .jsr _ | .ld _ _ | .ldi _ _ | .lea _ _ => []
  | .trap _ _ | .getc _ | .inp _ | .halt _ | .rti _ | .res _ => []

/-- The column "writes" of R31. -/
def Instr.gprWrites : Instr → List Reg
  | .addReg dr _ _ _ | .addImm dr _ _ | .andReg dr _ _ _ | .andImm dr _ _ | .not dr _ _ => [dr]
  | .ld dr _ | .ldi dr _ | .ldr dr _ _ | .lea dr _ => [dr]
  | .jsr _ | .jsrr _ _ _ | .trap _ _ | .out _ | .puts _ | .putsp _ | .halt _ => [7]
  | .getc _ | .inp _ => [7, 0]
  | .br _ _ _ _ | .jmp _ _ _ | .ret | .st _ _ | .sti _ _ | .str _ _ _ | .rti _ | .res _ => []

/-- One of TRAP and its six routines. -/
def Instr.isTrap : Instr → Bool
  | .trap _ _ | .getc _ | .out _ | .puts _ | .inp _ | .putsp _ | .halt _ => true
  | .addReg _ _ _ _ | .addImm _ _ _ | .andReg _ _ _ _ | .andImm _ _ _ | .not _ _ _ => false
  | .br _ _ _ _ | .jmp _ _ _ | .ret | .jsr _ | .jsrr _ _ _ => false
  | .ld _ _ | .ldi _ _ | .ldr _ _ _ | .lea _ _ | .st _ _ | .sti _ _ | .str _ _ _ => false
  | .rti _ | .res _ => false

/-- An instruction that makes no data access (the last row of R70), the string routines apart. -/
def Instr.noDataAccess : Instr → Bool
  | .addReg _ _ _ _ | .addImm _ _ _ | .andReg _ _ _ _ | .andImm _ _ _ | .not _ _ _ => true
  | .br _ _ _ _ | .jmp _ _ _ | .ret | .jsr _ | .jsrr _ _ _ | .lea _ _ => true
  | .trap _ _ | .getc _ | .out _ | .inp _ | .halt _ | .rti _ | .res _ => true
  | .ld _ _ | .ldi _ _ | .ldr _ _ _ | .st _ _ | .sti _ _ | .str _ _ _ | .puts _ | .putsp _ => false

namespace Machine

/-! ### The invariant -/

/-- The parameters the spec allows: a value for each opcode (R92), three flags that are one bit each, ZRO bit 1 (R36), two
different keyboard addresses (R66) and a non-zero fatal exit code (R41). -/
structure Legal (p : Params) : Prop where
  opcodes : p.opcodeMap.Legal
  zro : p.condZro = 0x0002#16
  negPos : (p.condNeg = 0x0004#16 ∧ p.condPos = 0x0001#16) ∨ (p.condNeg = 0x0001#16 ∧ p.condPos = 0x0004#16)
  keyboard : p.kbsrAddr ≠ p.kbdrAddr
  exitCode : p.exitCodeFault ≠ 0

/-- The cycle in progress is a string scan. -/
def Phase.scanning : Phase → Bool
  | .puts _ | .putsp _ => true
  | .idle | .getc | .inp => false

/-- What every step keeps. -/
structure State.Inv (s : State) : Prop where
  /-- memory in canonical form, all addresses below 65536 (R60) -/
  memory : s.mem.wf = true
  /-- once set, COND holds exactly one of the three flags (R36) -/
  cond : s.cond.written = true → s.cond.value = s.params.condNeg ∨ s.cond.value = s.params.condZro ∨
    s.cond.value = s.params.condPos
  /-- no more bytes are delivered than put (R48) -/
  delivered : s.console.delivered ≤ s.console.output.length
  /-- but for a string scan in progress, everything put is delivered (R212) -/
  flushed : s.phase.scanning = false → s.console.delivered = s.console.output.length
  /-- a stopped engine has no cycle in progress (R41) -/
  stopped : s.engine ≠ .running → s.phase = .idle
  /-- the parameters are legal -/
  params : Legal s.params

/-! ### Ends of a run -/

/-- The only normal end of a run: HALTED with `HaltTrap` (R254, R264). -/
def State.normalEnd (s : State) : Prop := s.engine = .halted .haltTrap

/-- The engine is FAULTED: the run has no meaning (R42, R254). -/
def State.isFaulted : State → Bool
  | { engine := .faulted _ _, .. } => true
  | { engine := .running, .. } | { engine := .halted _, .. } => false

/-- A run from `s` is safe for `n` steps: no state it reaches within them is FAULTED (R254). -/
def SafeRun (n : Nat) (s : State) : Prop :=
  ∀ k t, k ≤ n → Host.Core.run Sys2Proof.core k s = Host.Outcome.next t → t.isFaulted = false

end Machine

end Sys2Proof
end

