-- ==== Sys2Proof/Certificates/Slice0/Obligations.lean ====
section
/-! DEFINITION. The statements for the provers. A statement about `exec i s` speaks of `s` after the fetch: `s.pc` is the
instruction's address plus one, `s.pc - 1` the address a halt or fault records (spec/30_encoding.md R97). -/

open Sys2Proof Sys2Proof.Machine

/-! ### Encoding and decoding -/

/-- Decoding the encoding of a well-formed instruction gives it back, for every field value (R93, R104) and every legal
`OPCODE_MAP` (R6, R92). -/
def Obligations.DecodeOfEncode : Prop :=
  ∀ (m : OpcodeMap) (i : Instr), m.Legal → i.wellFormed = true → decode m (encode m i) = i

/-- Encoding what a Word decodes to gives the Word back, for every legal `OPCODE_MAP` (R6): decoding drops no bit (R98,
R104). -/
def Obligations.EncodeOfDecode : Prop :=
  ∀ (m : OpcodeMap) (w : Word), m.Legal → encode m (decode m w) = w

/-- Decoding is total under every `OPCODE_MAP`, and what it answers is well formed (R98). -/
def Obligations.EveryWordDecodesWellFormed : Prop :=
  ∀ (m : OpcodeMap) (w : Word), (decode m w).wellFormed = true

/-- Words of the spec's examples, one or more of each opcode, decode to the instructions they stand for (R101-R103), in the
spec's presumed numbering of the opcodes (log 1). -/
def Obligations.SampleWordsDecode : Prop :=
  decode standardOpcodeMap 0x1401#16 = .addReg 2 0 1 0#2 ∧
  decode standardOpcodeMap 0x1065#16 = .addImm 0 1 0b00101#5 ∧
  decode standardOpcodeMap 0x5642#16 = .andReg 3 1 2 0#2 ∧ decode standardOpcodeMap 0x993F#16 = .not 4 4 0b111111#6 ∧
  decode standardOpcodeMap 0x0402#16 = .br false true false 2#9 ∧
  decode standardOpcodeMap 0xC080#16 = .jmp 0#3 2 0#6 ∧ decode standardOpcodeMap 0xC1C0#16 = .ret ∧
  decode standardOpcodeMap 0x4810#16 = .jsr 16#11 ∧ decode standardOpcodeMap 0x40C0#16 = .jsrr 0#2 3 0#6 ∧
  decode standardOpcodeMap 0x2205#16 = .ld 1 5#9 ∧ decode standardOpcodeMap 0x673F#16 = .ldr 3 4 0b111111#6 ∧
  decode standardOpcodeMap 0x31FE#16 = .st 0 0x1FE#9 ∧ decode standardOpcodeMap 0xA401#16 = .ldi 2 1#9 ∧
  decode standardOpcodeMap 0xE003#16 = .lea 0 3#9 ∧ decode standardOpcodeMap 0xB201#16 = .sti 1 1#9 ∧
  decode standardOpcodeMap 0x7580#16 = .str 2 6 0#6 ∧ decode standardOpcodeMap 0xFF25#16 = .halt 0xF#4 ∧
  decode standardOpcodeMap 0xF026#16 = .trap 0#4 0x26#8 ∧ decode standardOpcodeMap 0x8000#16 = .rti 0#12 ∧
  decode standardOpcodeMap 0xDFFF#16 = .res 0xFFF#12

/-- The unused bits (R96): which they are and their standard values (PRESUMED: log 17); under `ignore` an instruction
does the same whatever they hold; under `fault` a Word whose unused bits are not standard stops after the fetch, before
any other effect. RTI and RES are never checked. -/
def Obligations.UnusedBitsPolicy : Prop :=
  (∀ (m : OpcodeMap) (w : Word), (decode m w).standardBits = true ↔
    (opcodeOf m w = .add ∨ opcodeOf m w = .and → w.getLsbD 5 = false → w.extractLsb' 3 2 = 0#2) ∧
    (opcodeOf m w = .not → w.extractLsb' 0 6 = 0b111111#6) ∧
    (opcodeOf m w = .jmp → w.extractLsb' 9 3 = 0#3 ∧ w.extractLsb' 0 6 = 0#6) ∧
    (opcodeOf m w = .jsr → w.getLsbD 11 = false → w.extractLsb' 9 2 = 0#2 ∧ w.extractLsb' 0 6 = 0#6) ∧
    (opcodeOf m w = .trap → w.extractLsb' 8 4 = 0#4)) ∧
  (∀ (m : OpcodeMap) (w w' : Word) (s : State), (decode m w).standardized = (decode m w').standardized →
    exec (decode m w) s = exec (decode m w') s) ∧
  (∀ s : State, s.engine = .running → s.phase = .idle → s.abortSignal = false → s.params.reservedBits = .ignore →
    step s = exec (decode s.params.opcodeMap (s.memRead s.pc).1) { (s.memRead s.pc).2 with pc := s.pc + 1#16 }) ∧
  (∀ s : State, s.engine = .running → s.phase = .idle → s.abortSignal = false → s.params.reservedBits = .fault →
    (decode s.params.opcodeMap (s.memRead s.pc).1).standardBits = false →
    step s = .next { (s.memRead s.pc).2 with pc := s.pc + 1#16, engine := .faulted .reservedBits s.pc })

/-- `sext` keeps the field's bits and repeats its top bit above them; `zext8` puts zeros above (R9, R94). -/
def Obligations.ExtensionBits : Prop :=
  (∀ (n : Nat) (v : BitVec n) (k : Nat), 0 < n → n ≤ 16 → k < 16 →
    (sext v).getLsbD k = if k < n then v.getLsbD k else v.getLsbD (n - 1)) ∧
  (∀ (b : Byte) (k : Nat), (zext8 b).getLsbD k = (decide (k < 8) && b.getLsbD k))

/-! ### The step -/

/-- One cycle (R97): the fetch by a `MemRead` at the PC, the increment modulo 2^16, the reserved-bits check, and then
the instruction the Word decodes to. -/
def Obligations.StepRunsTheDecodedInstruction : Prop :=
  ∀ s : State, s.engine = .running → s.phase = .idle → s.abortSignal = false →
    step s =
      if s.params.reservedBits = .fault ∧ (decode s.params.opcodeMap (s.memRead s.pc).1).standardBits = false then
        .next { (s.memRead s.pc).2 with pc := s.pc + 1#16, engine := .faulted .reservedBits s.pc }
      else exec (decode s.params.opcodeMap (s.memRead s.pc).1) { (s.memRead s.pc).2 with pc := s.pc + 1#16 }

/-- A step exists exactly in RUNNING: no step follows HALTED or FAULTED (R254), and no instruction, in any running state,
ends in a fault or a refusal of the model (R250: every event is a state the engine enters). -/
def Obligations.StepExistsExactlyWhenRunning : Prop :=
  ∀ s : State, (∃ t, step s = .next t) ↔ s.engine = .running

/-- The host's abort, between two cycles or during a console wait: the engine is HALTED as `aborted` and nothing else
changes but the end of the waiting cycle (R50). That it is a bit of the state read there is the model's form (log 13). -/
def Obligations.HostAbortEndsTheRun : Prop :=
  ∀ s : State, s.engine = .running → s.abortSignal = true → s.phase = .idle ∨ s.phase = .getc ∨ s.phase = .inp →
    step s = .next { s with engine := .halted .aborted, phase := .idle }

/-- What can end a run, and with which record (R250): the stop is one of the listed events, raised by the instructions
listed for it. `s.pc` is the address of the instruction here, `w` its Word; RTI and RES record the opcode `w[15:12]`
(R251), which a legal `OPCODE_MAP` makes the value the map gives them. -/
def Obligations.EventsThatEndARun : Prop :=
  ∀ s t : State, s.params.opcodeMap.Legal → s.engine = .running → step s = .next t → t.engine ≠ .running →
    let w := (s.memRead s.pc).1
    let i := decode s.params.opcodeMap w
    (s.abortSignal = true ∧ s.phase.scanning = false ∧ t.engine = .halted .aborted) ∨
    (s.abortSignal = false ∧ s.phase = .idle ∧
      ((∃ u, i = .halt u ∧ t.engine = .halted .haltTrap) ∨
       (∃ u, i = .rti u ∧ t.engine = .halted (.invalidOpcode s.pc (w.extractLsb' 12 4))) ∨
       (∃ u, i = .res u ∧ t.engine = .halted (.invalidOpcode s.pc (w.extractLsb' 12 4))) ∨
       (∃ u v, i = .trap u v ∧ definedVector v = false ∧ t.engine = .halted (.unhandledTrap s.pc v)) ∨
       (∃ r, r ∈ i.gprReads ∧ s.gpr[r].written = false ∧ t.engine = .faulted (.unwrittenRegister r) s.pc) ∨
       (∃ n z p off9, i = .br n z p off9 ∧ (n || z || p) = true ∧ s.cond.written = false ∧
          t.engine = .faulted .unsetCond s.pc) ∨
       (s.params.reservedBits = .fault ∧ i.standardBits = false ∧ t.engine = .faulted .reservedBits s.pc)))

/-- The state at a halt or fault of an instruction (R252): the effects before the raise are kept and nothing else
changes: R7 for a TRAP or JSRR, the notice for HALT. -/
def Obligations.HaltEntryChangesNothingElse : Prop :=
  ∀ (i : Instr) (s t : State), i.wellFormed = true → s.engine = .running → exec i s = .next t → t.engine ≠ .running →
    t.pc = s.pc ∧ t.cond = s.cond ∧ t.mem = s.mem ∧ t.phase = s.phase ∧ t.params = s.params ∧
    t.abortSignal = s.abortSignal ∧ t.console.input = s.console.input ∧
    (∀ r : Reg, r ≠ 7 → t.gpr[r] = s.gpr[r]) ∧
    ((i.isTrap = true ∨ ∃ hi base lo, i = .jsrr hi base lo) → t.gpr[(7 : Reg)] = ⟨s.pc, true⟩) ∧
    ((i.isTrap = false ∧ ∀ hi base lo, i ≠ .jsrr hi base lo) → t.gpr[(7 : Reg)] = s.gpr[(7 : Reg)]) ∧
    ((∃ u, i = .halt u) → t.console.output = s.console.output ++ s.params.haltNotice) ∧
    ((∀ u, i ≠ .halt u) → t.console = s.console)

/-! ### Whole-machine rules over the registers, the PC, COND and memory -/

/-- COND is written by the flag-setting instructions, from the value they leave in their destination, and by no others;
an instruction that stops writes none (R37). -/
def Obligations.CondIsWrittenByFlagSettersOnly : Prop :=
  ∀ (i : Instr) (s t : State), s.engine = .running → exec i s = .next t →
    (∀ dr, i.flagDest = some dr → t.engine = .running → t.cond = ⟨condOf s.params t.gpr[dr].value, true⟩) ∧
    (i.flagDest = none ∨ t.engine ≠ .running → t.cond = s.cond)

/-- An instruction writes no general register but those R31 lists for it. -/
def Obligations.OnlyListedRegistersAreWritten : Prop :=
  ∀ (i : Instr) (s t : State) (r : Reg), i.wellFormed = true → exec i s = .next t → r ∉ i.gprWrites →
    t.gpr[r] = s.gpr[r]

/-- An instruction reads no general register but those R31 lists for it: with another content in an unread register it
does the same to everything else, and leaves that content where it does not write it. -/
def Obligations.OnlyListedRegistersAreRead : Prop :=
  ∀ (i : Instr) (s t : State) (r : Reg) (x : Slot), i.wellFormed = true → exec i s = .next t → r ∉ i.gprReads →
    ∃ t', exec i { s with gpr := s.gpr.set r x } = .next t' ∧
      { t' with gpr := t'.gpr.set r x } = { t with gpr := t.gpr.set r x } ∧
      (r ∉ i.gprWrites → t'.gpr[r] = x)

/-- How each instruction leaves the PC (R35). -/
def Obligations.PcAfterEachInstruction : Prop :=
  ∀ (i : Instr) (s t : State), s.engine = .running → exec i s = .next t →
    (t.engine ≠ .running → t.pc = s.pc) ∧
    (t.engine = .running → t.pc =
      match i with
      | .br n z p off9 => if branchTaken n z p s.cond.value then s.pc + sext off9 else s.pc
      | .jmp _ base _ => s.gpr[base].value
      | .ret => s.gpr[(7 : Reg)].value
      | .jsr off11 => s.pc + sext off11
      | .jsrr _ base _ => if base = 7 then s.pc else s.gpr[base].value
      | _ => s.pc)

/-- The first write makes a register, and the first `SetCC` makes COND, written for the rest of the run (R33, R39). That no
step changes the parameters of R6 (log 22) or the host's signal of R50 (log 13) is the model's form. -/
def Obligations.WrittenMarksPersist : Prop :=
  ∀ s t : State, step s = .next t →
    (∀ r : Reg, s.gpr[r].written = true → t.gpr[r].written = true) ∧
    (s.cond.written = true → t.cond.written = true) ∧
    t.params = s.params ∧ t.abortSignal = s.abortSignal

/-- Output bytes are only appended, and input bytes are only taken from the front, in order (R47, R48). -/
def Obligations.ConsoleStreamsKeepOrder : Prop :=
  ∀ s t : State, step s = .next t →
    s.console.output <+: t.console.output ∧ t.console.input <:+ s.console.input

/-- Every step keeps the invariant: canonical memory, a legal COND, delivered output, an idle stopped engine. -/
def Obligations.StepKeepsInvariant : Prop :=
  ∀ s t : State, s.Inv → step s = .next t → t.Inv

/-- The reset state meets the invariant. -/
def Obligations.ResetSatisfiesInvariant : Prop :=
  State.reset.Inv

/-- Every launch that the loader does not refuse meets the invariant (R280, R82). -/
def Obligations.LaunchSatisfiesInvariant : Prop :=
  ∀ (p : Params) (l : Launch) (s : State), Legal p → launch p l = .ok s → s.Inv

/-- A run that starts with every register written and COND set, under the `ignore` policy, never enters FAULTED
(R33, R39, R96, R284). -/
def Obligations.WrittenMachineNeverFaults : Prop :=
  ∀ s : State, s.isFaulted = false → (∀ r : Reg, s.gpr[r].written = true) → s.cond.written = true →
    s.params.reservedBits = .ignore → ∀ n, SafeRun n s

/-! ### Frames -/

/-- The frame of the instructions without a data access, the traps apart: ADD, AND, NOT, LEA, BR, JMP, RET, JSR, JSRR,
RTI, RES. Registers but the listed destinations, COND but for the flag setters, all of memory, the console. -/
def Obligations.FrameOfRegisterInstructions : Prop :=
  ∀ (i : Instr) (s t : State), i.noDataAccess = true → i.isTrap = false → exec i s = .next t →
    (∀ r : Reg, r ∉ i.gprWrites → t.gpr[r] = s.gpr[r]) ∧ (i.flagDest = none → t.cond = s.cond) ∧
    (∀ a, t.memPeek a = s.memPeek a) ∧ t.console = s.console ∧ t.phase = s.phase ∧
    t.abortSignal = s.abortSignal ∧ t.params = s.params

/-- The frame of LD, LDI, LDR: registers but DR; every Word of memory but what a poll writes, KBSR and KBDR; all of
memory and the console where no address read is `KBSR_ADDR`; never the output. -/
def Obligations.FrameOfLoads : Prop :=
  ∀ (i : Instr) (s t : State) (dr base : Reg) (off9 : BitVec 9) (off6 : BitVec 6), exec i s = .next t →
    i = .ld dr off9 ∨ i = .ldi dr off9 ∨ i = .ldr dr base off6 →
    (∀ r : Reg, r ≠ dr → t.gpr[r] = s.gpr[r]) ∧ t.pc = s.pc ∧
    (∀ a, a ≠ s.params.kbsrAddr → a ≠ s.params.kbdrAddr → t.memPeek a = s.memPeek a) ∧
    t.console.output = s.console.output ∧ t.console.delivered = s.console.delivered ∧
    t.phase = s.phase ∧ t.abortSignal = s.abortSignal ∧ t.params = s.params ∧
    ((i = .ld dr off9 ∧ pcRel9 s.pc off9 ≠ s.params.kbsrAddr) ∨
      (i = .ldi dr off9 ∧ pcRel9 s.pc off9 ≠ s.params.kbsrAddr ∧
        s.memPeek (pcRel9 s.pc off9) ≠ s.params.kbsrAddr) ∨
      (i = .ldr dr base off6 ∧ baseOff6 s.gpr[base].value off6 ≠ s.params.kbsrAddr) →
      (∀ a, t.memPeek a = s.memPeek a) ∧ t.console = s.console)

/-- The frame of ST and STR: every register, COND, the PC, the console, and every Word of memory but the one at the
computed address. -/
def Obligations.FrameOfDirectStores : Prop :=
  ∀ (s t : State) (sr base : Reg) (off9 : BitVec 9) (off6 : BitVec 6) (i : Instr) (ea : Word),
    (i = .st sr off9 ∧ ea = pcRel9 s.pc off9) ∨ (i = .str sr base off6 ∧ ea = baseOff6 s.gpr[base].value off6) →
    exec i s = .next t →
    t.gpr = s.gpr ∧ t.cond = s.cond ∧ t.pc = s.pc ∧ (∀ a, a ≠ ea → t.memPeek a = s.memPeek a) ∧
    t.console = s.console ∧ t.phase = s.phase ∧ t.abortSignal = s.abortSignal ∧ t.params = s.params

/-- The frame of STI: every register, COND, the PC, the output, and every Word of memory but the one the pointer names
and, when the pointer's own address is `KBSR_ADDR`, what that read's poll writes. -/
def Obligations.FrameOfIndirectStore : Prop :=
  ∀ (s t : State) (sr : Reg) (off9 : BitVec 9), exec (.sti sr off9) s = .next t →
    t.gpr = s.gpr ∧ t.cond = s.cond ∧ t.pc = s.pc ∧
    (∀ a, a ≠ (s.memRead (pcRel9 s.pc off9)).1 →
      (pcRel9 s.pc off9 = s.params.kbsrAddr → a ≠ s.params.kbsrAddr ∧ a ≠ s.params.kbdrAddr) →
      t.memPeek a = s.memPeek a) ∧
    t.console.output = s.console.output ∧ (pcRel9 s.pc off9 ≠ s.params.kbsrAddr → t.console = s.console) ∧
    t.phase = s.phase ∧ t.abortSignal = s.abortSignal ∧ t.params = s.params

/-- The frame of TRAP and its routines: registers but R7 and, for GETC and IN, R0; COND; the PC; all of memory, but for
what a string read's poll writes where the parameter lets it poll. -/
def Obligations.FrameOfTraps : Prop :=
  ∀ (i : Instr) (s t : State), i.wellFormed = true → i.isTrap = true → exec i s = .next t →
    (∀ r : Reg, r ∉ i.gprWrites → t.gpr[r] = s.gpr[r]) ∧ t.cond = s.cond ∧ t.pc = s.pc ∧
    (s.params.stringReadPolls = false ∨ i.noDataAccess = true → ∀ a, t.memPeek a = s.memPeek a) ∧
    (∀ a, a ≠ s.params.kbsrAddr → a ≠ s.params.kbdrAddr → t.memPeek a = s.memPeek a) ∧
    t.abortSignal = s.abortSignal ∧ t.params = s.params

/-! ### Operate instructions -/

/-- `SetCC` (R36): COND becomes the parameter `COND_NEG`, `COND_ZRO` or `COND_POS` by the sign of the 16-bit value, and
nothing else changes; under legal parameters exactly one of bits 2, 1, 0 is set and bits 15-3 are 0, bit 1 for the value
zero. The numbers of the reset state's parameters are the spec's, NEG and POS presumed (log 2). -/
def Obligations.SetCCStoresOneFlag : Prop :=
  (∀ (s : State) (v : Word),
    s.setCC v = { s with cond := ⟨
      if v.getLsbD 15 = true then s.params.condNeg
      else if v = 0x0000#16 then s.params.condZro else s.params.condPos, true⟩ }) ∧
  (∀ (s : State) (v : Word), Legal s.params →
    ((s.setCC v).cond.value = 0x0001#16 ∨ (s.setCC v).cond.value = 0x0002#16 ∨ (s.setCC v).cond.value = 0x0004#16) ∧
    ((s.setCC v).cond.value = 0x0002#16 ↔ v = 0x0000#16)) ∧
  (State.reset.params.condNeg = 0x0004#16 ∧ State.reset.params.condZro = 0x0002#16 ∧
    State.reset.params.condPos = 0x0001#16)

/-- ADD, both modes (R120, R121): the encoding, and the result or the fault of the first unwritten source. -/
def Obligations.AddResults : Prop :=
  ∀ (dr sr1 sr2 : Reg) (u : BitVec 2) (imm5 : BitVec 5) (s : State),
    (∀ op : BitVec 4, s.params.opcodeMap.opcode op = .add →
      decode s.params.opcodeMap (op ++ regBits dr ++ regBits sr1 ++ 0#1 ++ u ++ regBits sr2) = .addReg dr sr1 sr2 u ∧
      decode s.params.opcodeMap (op ++ regBits dr ++ regBits sr1 ++ 1#1 ++ imm5) = .addImm dr sr1 imm5) ∧
    (s.gpr[sr1].written = true → s.gpr[sr2].written = true →
      exec (.addReg dr sr1 sr2 u) s = .next { s with
        gpr := s.gpr.set dr ⟨s.gpr[sr1].value + s.gpr[sr2].value, true⟩
        cond := ⟨condOf s.params (s.gpr[sr1].value + s.gpr[sr2].value), true⟩ }) ∧
    (s.gpr[sr1].written = true → s.gpr[sr2].written = false →
      exec (.addReg dr sr1 sr2 u) s = .next { s with engine := .faulted (.unwrittenRegister sr2) (s.pc - 1#16) }) ∧
    (s.gpr[sr1].written = true →
      exec (.addImm dr sr1 imm5) s = .next { s with
        gpr := s.gpr.set dr ⟨s.gpr[sr1].value + sext imm5, true⟩
        cond := ⟨condOf s.params (s.gpr[sr1].value + sext imm5), true⟩ }) ∧
    (s.gpr[sr1].written = false →
      exec (.addReg dr sr1 sr2 u) s = .next { s with engine := .faulted (.unwrittenRegister sr1) (s.pc - 1#16) } ∧
      exec (.addImm dr sr1 imm5) s = .next { s with engine := .faulted (.unwrittenRegister sr1) (s.pc - 1#16) })

/-- AND, both modes (R122, R123), with their encodings. -/
def Obligations.AndResults : Prop :=
  ∀ (dr sr1 sr2 : Reg) (u : BitVec 2) (imm5 : BitVec 5) (s : State),
    (∀ op : BitVec 4, s.params.opcodeMap.opcode op = .and →
      decode s.params.opcodeMap (op ++ regBits dr ++ regBits sr1 ++ 0#1 ++ u ++ regBits sr2) = .andReg dr sr1 sr2 u ∧
      decode s.params.opcodeMap (op ++ regBits dr ++ regBits sr1 ++ 1#1 ++ imm5) = .andImm dr sr1 imm5) ∧
    (s.gpr[sr1].written = true → s.gpr[sr2].written = true →
      exec (.andReg dr sr1 sr2 u) s = .next { s with
        gpr := s.gpr.set dr ⟨s.gpr[sr1].value &&& s.gpr[sr2].value, true⟩
        cond := ⟨condOf s.params (s.gpr[sr1].value &&& s.gpr[sr2].value), true⟩ }) ∧
    (s.gpr[sr1].written = true → s.gpr[sr2].written = false →
      exec (.andReg dr sr1 sr2 u) s = .next { s with engine := .faulted (.unwrittenRegister sr2) (s.pc - 1#16) }) ∧
    (s.gpr[sr1].written = true →
      exec (.andImm dr sr1 imm5) s = .next { s with
        gpr := s.gpr.set dr ⟨s.gpr[sr1].value &&& sext imm5, true⟩
        cond := ⟨condOf s.params (s.gpr[sr1].value &&& sext imm5), true⟩ }) ∧
    (s.gpr[sr1].written = false →
      exec (.andReg dr sr1 sr2 u) s = .next { s with engine := .faulted (.unwrittenRegister sr1) (s.pc - 1#16) } ∧
      exec (.andImm dr sr1 imm5) s = .next { s with engine := .faulted (.unwrittenRegister sr1) (s.pc - 1#16) })

/-- NOT (R124), with its encoding. -/
def Obligations.NotResult : Prop :=
  ∀ (dr sr1 : Reg) (u : BitVec 6) (s : State),
    (∀ op : BitVec 4, s.params.opcodeMap.opcode op = .not →
      decode s.params.opcodeMap (op ++ regBits dr ++ regBits sr1 ++ u) = .not dr sr1 u) ∧
    (s.gpr[sr1].written = true →
      exec (.not dr sr1 u) s = .next { s with
        gpr := s.gpr.set dr ⟨~~~s.gpr[sr1].value, true⟩
        cond := ⟨condOf s.params (~~~s.gpr[sr1].value), true⟩ }) ∧
    (s.gpr[sr1].written = false →
      exec (.not dr sr1 u) s = .next { s with engine := .faulted (.unwrittenRegister sr1) (s.pc - 1#16) })

/-! ### Control transfer -/

/-- BR (R140), with its encoding: a zero mask does nothing; else COND must be set, and the PC changes when the mask, as the
number `instr[11:9]`, has a bit in common with COND. -/
def Obligations.BranchResult : Prop :=
  ∀ (n z p : Bool) (off9 : BitVec 9) (s : State),
    (∀ op : BitVec 4, s.params.opcodeMap.opcode op = .br →
      decode s.params.opcodeMap (op ++ BitVec.ofBool n ++ BitVec.ofBool z ++ BitVec.ofBool p ++ off9) = .br n z p off9) ∧
    exec (.br false false false off9) s = .next s ∧
    ((n || z || p) = true → s.cond.written = false →
      exec (.br n z p off9) s = .next { s with engine := .faulted .unsetCond (s.pc - 1#16) }) ∧
    ((n || z || p) = true → s.cond.written = true →
      exec (.br n z p off9) s = .next { s with
        pc :=
          if (BitVec.ofBool n ++ BitVec.ofBool z ++ BitVec.ofBool p).setWidth 16 &&& s.cond.value ≠ 0x0000#16 then
            s.pc + sext off9
          else s.pc })

/-- BR after a `SetCC(v)` under legal parameters: z branches on zero; n branches on a negative `v` and p on a positive one
where NEG is bit 2, as the spec presumes (R36, log 2), and the other way round where NEG is bit 0; a full mask always
branches (R140). -/
def Obligations.BranchFollowsTheSign : Prop :=
  ∀ (n z p : Bool) (off9 : BitVec 9) (s : State) (v : Word), Legal s.params → s.cond = ⟨condOf s.params v, true⟩ →
    (s.params.condNeg = 0x0004#16 →
      exec (.br n z p off9) s = .next { s with
        pc :=
          if (if v.getLsbD 15 then n else if v = 0x0000#16 then z else p) = true then s.pc + sext off9 else s.pc }) ∧
    (s.params.condNeg = 0x0001#16 →
      exec (.br n z p off9) s = .next { s with
        pc :=
          if (if v.getLsbD 15 then p else if v = 0x0000#16 then z else n) = true then s.pc + sext off9 else s.pc }) ∧
    exec (.br true true true off9) s = .next { s with pc := s.pc + sext off9 }

/-- JMP and RET (R141), with their encoding: RET is BaseR = R7 and the unused bits 0, and does what JMP R7 does. -/
def Obligations.JumpResult : Prop :=
  ∀ (hi : BitVec 3) (base : Reg) (lo : BitVec 6) (s : State),
    (∀ op : BitVec 4, s.params.opcodeMap.opcode op = .jmp →
      decode s.params.opcodeMap (op ++ hi ++ regBits base ++ lo) =
      (if hi = 0#3 ∧ base = 7 ∧ lo = 0#6 then .ret else .jmp hi base lo)) ∧
    (s.gpr[base].written = true → exec (.jmp hi base lo) s = .next { s with pc := s.gpr[base].value }) ∧
    (s.gpr[base].written = false →
      exec (.jmp hi base lo) s = .next { s with engine := .faulted (.unwrittenRegister base) (s.pc - 1#16) }) ∧
    (s.gpr[(7 : Reg)].written = true → exec .ret s = .next { s with pc := s.gpr[(7 : Reg)].value }) ∧
    (s.gpr[(7 : Reg)].written = false →
      exec .ret s = .next { s with engine := .faulted (.unwrittenRegister 7) (s.pc - 1#16) })

/-- JSR (R142), and JSRR (R143), with their encodings: R7 is written before BaseR is read, so `JSRR R7` goes on at the
next instruction. -/
def Obligations.SubroutineCallResults : Prop :=
  ∀ (off11 : BitVec 11) (hi : BitVec 2) (base : Reg) (lo : BitVec 6) (s : State),
    (∀ op : BitVec 4, s.params.opcodeMap.opcode op = .jsr →
      decode s.params.opcodeMap (op ++ 1#1 ++ off11) = .jsr off11 ∧
      decode s.params.opcodeMap (op ++ 0#1 ++ hi ++ regBits base ++ lo) = .jsrr hi base lo) ∧
    exec (.jsr off11) s = .next { s with gpr := s.gpr.set (7 : Reg) ⟨s.pc, true⟩, pc := s.pc + sext off11 } ∧
    exec (.jsrr hi 7 lo) s = .next { s with gpr := s.gpr.set (7 : Reg) ⟨s.pc, true⟩ } ∧
    (base ≠ 7 → s.gpr[base].written = true →
      exec (.jsrr hi base lo) s =
        .next { s with gpr := s.gpr.set (7 : Reg) ⟨s.pc, true⟩, pc := s.gpr[base].value }) ∧
    (base ≠ 7 → s.gpr[base].written = false →
      exec (.jsrr hi base lo) s = .next { s with
        gpr := s.gpr.set (7 : Reg) ⟨s.pc, true⟩
        engine := .faulted (.unwrittenRegister base) (s.pc - 1#16) })

/-! ### Memory and the keyboard -/

/-- `MemRead` (R62) and the keyboard poll (R65): a poll only at `KBSR_ADDR`; a key consumed, KBSR ready, KBDR the byte;
no key, KBSR 0 and KBDR left. What a poll writes is the spec's own decision (R65, PRESUMED: log 8). A string read (R210)
is a peek, or a `MemRead` under the parameter. -/
def Obligations.MemReadPollsAtKbsr : Prop :=
  ∀ (s : State) (a : Word),
    (a ≠ s.params.kbsrAddr → s.memRead a = (s.mem.read a.toNat, s)) ∧
    (∀ b c, s.console.poll = (some b, c) →
      s.kbdPoll = { s with
        console := c
        mem := (s.mem.write s.params.kbsrAddr.toNat s.params.kbsrReady).write s.params.kbdrAddr.toNat (b.setWidth 16) }) ∧
    (∀ c, s.console.poll = (none, c) →
      s.kbdPoll = { s with console := c, mem := s.mem.write s.params.kbsrAddr.toNat 0x0000#16 }) ∧
    (a = s.params.kbsrAddr → s.memRead a = (s.kbdPoll.mem.read a.toNat, s.kbdPoll)) ∧
    (s.params.stringReadPolls = false → s.strRead a = (s.mem.read a.toNat, s)) ∧
    (s.params.stringReadPolls = true → s.strRead a = s.memRead a)

/-- What a poll may answer (R47): the next input byte, consumed, or none with no byte consumed; none when there is no
byte (DEDUCED: log 10); the recorded answers decide where there are some, whatever the free draw is (log 9). -/
def Obligations.PollConsumesTheNextByteOrNone : Prop :=
  ∀ c : Console,
    ((∃ b rest, c.input = b :: rest ∧ c.poll.1 = some b ∧ c.poll.2.input = rest) ∨
      (c.poll.1 = none ∧ c.poll.2.input = c.input)) ∧
    (c.input = [] → c.poll.1 = none) ∧
    (∀ b rest later, c.input = b :: rest → c.polls = true :: later → c.poll.1 = some b) ∧
    (∀ later, c.polls = false :: later → c.poll.1 = none) ∧
    c.poll.2.output = c.output ∧ c.poll.2.delivered = c.delivered

/-- A write stores at its address and nowhere else, at every address (R64, R73), in a canonical memory, and keeps it
canonical. -/
def Obligations.MemWriteStoresOneWord : Prop :=
  ∀ (s : State) (a v : Word), s.mem.wf = true →
    (s.memWrite a v).memPeek a = v ∧ (∀ b, b ≠ a → (s.memWrite a v).memPeek b = s.memPeek b) ∧
    (s.memWrite a v).mem.wf = true ∧ { s.memWrite a v with mem := s.mem } = s

/-- A store followed by a load of the same address (R183): the stored Word, but at `KBSR_ADDR` the poll's. The two values a
poll writes there are the spec's own decision (R65, PRESUMED: log 8). -/
def Obligations.LoadAfterStore : Prop :=
  ∀ (s : State) (a v : Word), s.mem.wf = true → Legal s.params →
    (a ≠ s.params.kbsrAddr → ((s.memWrite a v).memRead a).1 = v) ∧
    (a = s.params.kbsrAddr →
      ((s.memWrite a v).memRead a).1 = s.params.kbsrReady ∨ ((s.memWrite a v).memRead a).1 = 0x0000#16)

/-! ### Loads and stores -/

/-- LD (R160), with its encoding: `q` is the read at the PC-relative address, with the state after it. LDI (R161): a
second read `r`, at the Word the first gave, in that order. -/
def Obligations.LdAndLdiResults : Prop :=
  ∀ (dr : Reg) (off9 : BitVec 9) (s : State),
    (∀ op : BitVec 4, s.params.opcodeMap.opcode op = .ld →
      decode s.params.opcodeMap (op ++ regBits dr ++ off9) = .ld dr off9) ∧
    (∀ op : BitVec 4, s.params.opcodeMap.opcode op = .ldi →
      decode s.params.opcodeMap (op ++ regBits dr ++ off9) = .ldi dr off9) ∧
    ∃ q r, q = s.memRead (s.pc + sext off9) ∧ r = q.2.memRead q.1 ∧
    exec (.ld dr off9) s = .next { q.2 with gpr := s.gpr.set dr ⟨q.1, true⟩, cond := ⟨condOf s.params q.1, true⟩ } ∧
    exec (.ldi dr off9) s = .next { r.2 with gpr := s.gpr.set dr ⟨r.1, true⟩, cond := ⟨condOf s.params r.1, true⟩ }

/-- LDR (R162), with its encoding. -/
def Obligations.LdrResult : Prop :=
  ∀ (dr base : Reg) (off6 : BitVec 6) (s : State),
    (∀ op : BitVec 4, s.params.opcodeMap.opcode op = .ldr →
      decode s.params.opcodeMap (op ++ regBits dr ++ regBits base ++ off6) = .ldr dr base off6) ∧
    (s.gpr[base].written = true → ∃ r, r = s.memRead (s.gpr[base].value + sext off6) ∧
      exec (.ldr dr base off6) s =
        .next { r.2 with gpr := s.gpr.set dr ⟨r.1, true⟩, cond := ⟨condOf s.params r.1, true⟩ }) ∧
    (s.gpr[base].written = false →
      exec (.ldr dr base off6) s = .next { s with engine := .faulted (.unwrittenRegister base) (s.pc - 1#16) })

/-- LEA (R163), with its encoding: the address, no read, COND set. -/
def Obligations.LeaResult : Prop :=
  ∀ (dr : Reg) (off9 : BitVec 9) (s : State),
    (∀ op : BitVec 4, s.params.opcodeMap.opcode op = .lea →
      decode s.params.opcodeMap (op ++ regBits dr ++ off9) = .lea dr off9) ∧
    exec (.lea dr off9) s = .next { s with
      gpr := s.gpr.set dr ⟨s.pc + sext off9, true⟩, cond := ⟨condOf s.params (s.pc + sext off9), true⟩ }

/-- ST and STR (R180, R182), with their encodings. -/
def Obligations.DirectStoreResults : Prop :=
  ∀ (sr base : Reg) (off9 : BitVec 9) (off6 : BitVec 6) (s : State),
    (∀ op : BitVec 4, s.params.opcodeMap.opcode op = .st →
      decode s.params.opcodeMap (op ++ regBits sr ++ off9) = .st sr off9) ∧
    (∀ op : BitVec 4, s.params.opcodeMap.opcode op = .str →
      decode s.params.opcodeMap (op ++ regBits sr ++ regBits base ++ off6) = .str sr base off6) ∧
    (s.gpr[sr].written = true →
      exec (.st sr off9) s = .next { s with mem := s.mem.write (s.pc + sext off9).toNat s.gpr[sr].value }) ∧
    (s.gpr[sr].written = true → s.gpr[base].written = true →
      exec (.str sr base off6) s =
        .next { s with mem := s.mem.write (s.gpr[base].value + sext off6).toNat s.gpr[sr].value }) ∧
    (s.gpr[sr].written = true → s.gpr[base].written = false →
      exec (.str sr base off6) s = .next { s with engine := .faulted (.unwrittenRegister base) (s.pc - 1#16) }) ∧
    (s.gpr[sr].written = false →
      exec (.st sr off9) s = .next { s with engine := .faulted (.unwrittenRegister sr) (s.pc - 1#16) } ∧
      exec (.str sr base off6) s = .next { s with engine := .faulted (.unwrittenRegister sr) (s.pc - 1#16) })

/-- STI (R181), with its encoding: SR is checked before the pointer read; `q` is that read, with the state after it. -/
def Obligations.StiResult : Prop :=
  ∀ (sr : Reg) (off9 : BitVec 9) (s : State),
    (∀ op : BitVec 4, s.params.opcodeMap.opcode op = .sti →
      decode s.params.opcodeMap (op ++ regBits sr ++ off9) = .sti sr off9) ∧
    (s.gpr[sr].written = true → ∃ q, q = s.memRead (s.pc + sext off9) ∧
      exec (.sti sr off9) s = .next { q.2 with mem := q.2.mem.write q.1.toNat s.gpr[sr].value }) ∧
    (s.gpr[sr].written = false →
      exec (.sti sr off9) s = .next { s with engine := .faulted (.unwrittenRegister sr) (s.pc - 1#16) })

/-! ### TRAP and the service routines -/

/-- TRAP (R200): its encoding, the vector selecting the routine (R201); every TRAP leaves R7 = the next instruction's
address, the PC and COND; the meaning of `trap` at a routine's vector is that routine's meaning, and at any other vector
it is the fatal halt. -/
def Obligations.TrapLinksAndDispatches : Prop :=
  (∀ (m : OpcodeMap) (op u : BitVec 4), m.opcode op = .trap →
    decode m (op ++ u ++ 0x20#8) = .getc u ∧ decode m (op ++ u ++ 0x21#8) = .out u ∧
    decode m (op ++ u ++ 0x22#8) = .puts u ∧ decode m (op ++ u ++ 0x23#8) = .inp u ∧
    decode m (op ++ u ++ 0x24#8) = .putsp u ∧ decode m (op ++ u ++ 0x25#8) = .halt u ∧
    ∀ vect : BitVec 8, vect.toNat < 0x20 ∨ 0x25 < vect.toNat → decode m (op ++ u ++ vect) = .trap u vect) ∧
  (∀ (i : Instr) (s t : State), i.wellFormed = true → i.isTrap = true → exec i s = .next t →
    t.gpr[(7 : Reg)] = ⟨s.pc, true⟩ ∧ t.pc = s.pc ∧ t.cond = s.cond) ∧
  (∀ (u : BitVec 4) (s : State),
    exec (.trap u 0x20#8) s = exec (.getc u) s ∧ exec (.trap u 0x21#8) s = exec (.out u) s ∧
    exec (.trap u 0x22#8) s = exec (.puts u) s ∧ exec (.trap u 0x23#8) s = exec (.inp u) s ∧
    exec (.trap u 0x24#8) s = exec (.putsp u) s ∧ exec (.trap u 0x25#8) s = exec (.halt u) s) ∧
  (∀ (u : BitVec 4) (vect : BitVec 8) (s : State), vect.toNat < 0x20 ∨ 0x25 < vect.toNat →
    ∃ t, exec (.trap u vect) s = .next t ∧ t.engine = .halted (.unhandledTrap (s.pc - 1#16) vect))

/-- GETC (R202, R211): a byte, or the sentinel at the end of input; with no answer from the host it waits (R209, R263):
the wait begins with R7 written, a step of it changes nothing, and it ends with the byte or the sentinel in R0. The
steps of the wait are the model's form (log 11). -/
def Obligations.GetcResult : Prop :=
  ∀ (u : BitVec 4) (s : State) (b : Byte) (rest : List Byte),
    (s.phase = .idle →
      (s.console.input = b :: rest →
        exec (.getc u) s = .next { s with
          gpr := (s.gpr.set (7 : Reg) ⟨s.pc, true⟩).set (0 : Reg) ⟨b.setWidth 16, true⟩
          console := { s.console with input := rest } }) ∧
      (s.console.input = [] → s.console.inputEnded = true →
        exec (.getc u) s = .next { s with
          gpr := (s.gpr.set (7 : Reg) ⟨s.pc, true⟩).set (0 : Reg) ⟨s.params.eofSentinel, true⟩ }) ∧
      (s.console.input = [] → s.console.inputEnded = false →
        exec (.getc u) s = .next { s with gpr := s.gpr.set (7 : Reg) ⟨s.pc, true⟩, phase := .getc })) ∧
    (s.engine = .running → s.abortSignal = false → s.phase = .getc →
      (s.console.input = [] → s.console.inputEnded = false → step s = .next s) ∧
      (s.console.input = [] → s.console.inputEnded = true →
        step s = .next { s with phase := .idle, gpr := s.gpr.set (0 : Reg) ⟨s.params.eofSentinel, true⟩ }) ∧
      (s.console.input = b :: rest →
        step s = .next { s with
          phase := .idle
          gpr := s.gpr.set (0 : Reg) ⟨b.setWidth 16, true⟩
          console := { s.console with input := rest } }))

/-- IN (R205, R211): the prompt, then the byte echoed and in R0, or the sentinel with no echo; all delivered. With no
answer from the host it waits as GETC does (R209, R263; log 11), the prompt already delivered. -/
def Obligations.InResult : Prop :=
  ∀ (u : BitVec 4) (s : State) (b : Byte) (rest : List Byte),
    (s.phase = .idle →
      (s.console.input = b :: rest →
        exec (.inp u) s = .next { s with
          gpr := (s.gpr.set (7 : Reg) ⟨s.pc, true⟩).set (0 : Reg) ⟨b.setWidth 16, true⟩
          console := { s.console with
            input := rest
            output := s.console.output ++ s.params.inPrompt ++ [b]
            delivered := (s.console.output ++ s.params.inPrompt ++ [b]).length } }) ∧
      (s.console.input = [] → s.console.inputEnded = true →
        exec (.inp u) s = .next { s with
          gpr := (s.gpr.set (7 : Reg) ⟨s.pc, true⟩).set (0 : Reg) ⟨s.params.eofSentinel, true⟩
          console := { s.console with
            output := s.console.output ++ s.params.inPrompt
            delivered := (s.console.output ++ s.params.inPrompt).length } }) ∧
      (s.console.input = [] → s.console.inputEnded = false →
        exec (.inp u) s = .next { s with
          gpr := s.gpr.set (7 : Reg) ⟨s.pc, true⟩
          phase := .inp
          console := { s.console with
            output := s.console.output ++ s.params.inPrompt
            delivered := (s.console.output ++ s.params.inPrompt).length } })) ∧
    (s.engine = .running → s.abortSignal = false → s.phase = .inp →
      (s.console.input = [] → s.console.inputEnded = false → step s = .next s) ∧
      (s.console.input = [] → s.console.inputEnded = true →
        step s = .next { s with phase := .idle, gpr := s.gpr.set (0 : Reg) ⟨s.params.eofSentinel, true⟩ }) ∧
      (s.console.input = b :: rest →
        step s = .next { s with
          phase := .idle
          gpr := s.gpr.set (0 : Reg) ⟨b.setWidth 16, true⟩
          console := { s.console with
            input := rest
            output := s.console.output ++ [b]
            delivered := (s.console.output ++ [b]).length } }))

/-- OUT (R203): the low byte of R0, delivered; the fault of an unwritten R0 comes after R7 is written. -/
def Obligations.OutResult : Prop :=
  ∀ (u : BitVec 4) (s : State),
    (∀ op : BitVec 4, s.params.opcodeMap.opcode op = .trap →
      decode s.params.opcodeMap (op ++ u ++ 0x21#8) = .out u) ∧
    (s.gpr[(0 : Reg)].written = true →
      exec (.out u) s = .next { s with
        gpr := s.gpr.set (7 : Reg) ⟨s.pc, true⟩
        console := { s.console with
          output := s.console.output ++ [s.gpr[(0 : Reg)].value.extractLsb' 0 8]
          delivered := s.console.output.length + 1 } }) ∧
    (s.gpr[(0 : Reg)].written = false →
      exec (.out u) s = .next { s with
        gpr := s.gpr.set (7 : Reg) ⟨s.pc, true⟩
        engine := .faulted (.unwrittenRegister 0) (s.pc - 1#16) })

/-- PUTS (R204): from R0 up, wrapping, the low byte of each Word before the first zero Word, delivered; the fault of an
unwritten R0 comes after R7 is written. Where string reads may poll, the string does not reach `KBSR_ADDR`. -/
def Obligations.PutsPrintsTheString : Prop :=
  ∀ (u : BitVec 4) (s : State) (p : Word) (n : Nat), s.phase = .idle →
    (∀ op : BitVec 4, s.params.opcodeMap.opcode op = .trap →
      decode s.params.opcodeMap (op ++ u ++ 0x22#8) = .puts u) ∧
    (s.gpr[(0 : Reg)] = ⟨p, true⟩ → n < 65536 →
      (s.params.stringReadPolls = false ∨ ∀ k, k ≤ n → p + BitVec.ofNat 16 k ≠ s.params.kbsrAddr) →
      (∀ k, k < n → s.memPeek (p + BitVec.ofNat 16 k) ≠ 0x0000#16) →
      s.memPeek (p + BitVec.ofNat 16 n) = 0x0000#16 →
      exec (.puts u) s = .next { s with
        gpr := s.gpr.set (7 : Reg) ⟨s.pc, true⟩
        console := { s.console with
          output := s.console.output ++
            (List.range n).map fun k => (s.memPeek (p + BitVec.ofNat 16 k)).extractLsb' 0 8
          delivered := s.console.output.length + n } }) ∧
    (s.gpr[(0 : Reg)].written = false →
      exec (.puts u) s = .next { s with
        gpr := s.gpr.set (7 : Reg) ⟨s.pc, true⟩
        engine := .faulted (.unwrittenRegister 0) (s.pc - 1#16) })

/-- PUTSP (R206): two bytes a Word, low byte first, up to the first zero byte in either position, delivered. -/
def Obligations.PutspPrintsThePackedString : Prop :=
  ∀ (u : BitVec 4) (s : State) (p : Word) (n : Nat), s.phase = .idle →
    (∀ op : BitVec 4, s.params.opcodeMap.opcode op = .trap →
      decode s.params.opcodeMap (op ++ u ++ 0x24#8) = .putsp u) ∧
    (s.gpr[(0 : Reg)] = ⟨p, true⟩ → n < 65536 →
      (s.params.stringReadPolls = false ∨ ∀ k, k ≤ n → p + BitVec.ofNat 16 k ≠ s.params.kbsrAddr) →
      (∀ k, k < n → (s.memPeek (p + BitVec.ofNat 16 k)).extractLsb' 0 8 ≠ 0x00#8 ∧
        (s.memPeek (p + BitVec.ofNat 16 k)).extractLsb' 8 8 ≠ 0x00#8) →
      ((s.memPeek (p + BitVec.ofNat 16 n)).extractLsb' 0 8 = 0x00#8 ∨
        (s.memPeek (p + BitVec.ofNat 16 n)).extractLsb' 8 8 = 0x00#8) →
      ∃ out, out = s.console.output ++
          ((List.range n).flatMap fun k =>
            [(s.memPeek (p + BitVec.ofNat 16 k)).extractLsb' 0 8, (s.memPeek (p + BitVec.ofNat 16 k)).extractLsb' 8 8]) ++
          (if (s.memPeek (p + BitVec.ofNat 16 n)).extractLsb' 0 8 = 0x00#8 then []
           else [(s.memPeek (p + BitVec.ofNat 16 n)).extractLsb' 0 8]) ∧
        exec (.putsp u) s = .next { s with
          gpr := s.gpr.set (7 : Reg) ⟨s.pc, true⟩
          console := { s.console with output := out, delivered := out.length } }) ∧
    (s.gpr[(0 : Reg)].written = false →
      exec (.putsp u) s = .next { s with
        gpr := s.gpr.set (7 : Reg) ⟨s.pc, true⟩
        engine := .faulted (.unwrittenRegister 0) (s.pc - 1#16) })

/-- PUTS and PUTSP whatever their reads do (R204, R206, R210), so also where they poll: `σ k` is the state before the read
at `p + k`, each read going on from the state the one before left with its bytes put. -/
def Obligations.StringRoutinesFollowTheirReads : Prop :=
  ∀ (u : BitVec 4) (s : State) (p : Word) (n : Nat) (σ : Nat → State),
    s.gpr[(0 : Reg)] = ⟨p, true⟩ → n < 65536 → σ 0 = { s with gpr := s.gpr.set (7 : Reg) ⟨s.pc, true⟩ } →
    ((∀ k, k < n → ∃ w t, (σ k).strRead (p + BitVec.ofNat 16 k) = (w, t) ∧ w ≠ 0x0000#16 ∧
        σ (k + 1) = t.put [w.extractLsb' 0 8]) →
      ∀ t, (σ n).strRead (p + BitVec.ofNat 16 n) = (0x0000#16, t) →
        exec (.puts u) s =
          .next { t with phase := .idle, console := { t.console with delivered := t.console.output.length } }) ∧
    ((∀ k, k < n → ∃ w t, (σ k).strRead (p + BitVec.ofNat 16 k) = (w, t) ∧ w.extractLsb' 0 8 ≠ 0x00#8 ∧
        w.extractLsb' 8 8 ≠ 0x00#8 ∧ σ (k + 1) = t.put [w.extractLsb' 0 8, w.extractLsb' 8 8]) →
      ∀ w t out, (σ n).strRead (p + BitVec.ofNat 16 n) = (w, t) →
        (w.extractLsb' 0 8 = 0x00#8 ∧ out = t.console.output) ∨
          (w.extractLsb' 0 8 ≠ 0x00#8 ∧ w.extractLsb' 8 8 = 0x00#8 ∧ out = t.console.output ++ [w.extractLsb' 0 8]) →
        exec (.putsp u) s =
          .next { t with phase := .idle, console := { t.console with output := out, delivered := out.length } })

/-- A PUTS or PUTSP whose scan never meets its terminator never ends (R213): after any number of steps the machine is
still RUNNING inside it, with nothing but the output changed, and it has put at least one lap of bytes for every step.
The lap a step is the model's form (log 12). -/
def Obligations.EndlessStringNeverEnds : Prop :=
  ∀ (u : BitVec 4) (s : State), s.engine = .running → s.gpr[(0 : Reg)].written = true →
    s.params.stringReadPolls = false →
    ((∀ a, s.memPeek a ≠ 0x0000#16) →
      ∃ t, exec (.puts u) s = .next t ∧
        ∀ k, ∃ t', Host.Core.run Sys2Proof.core k t = .next t' ∧ t'.engine = .running ∧ (∃ p, t'.phase = .puts p) ∧
          t'.gpr = s.gpr.set (7 : Reg) ⟨s.pc, true⟩ ∧ t'.mem = s.mem ∧ t'.pc = s.pc ∧ t'.cond = s.cond ∧
          s.console.output.length + 65536 * (k + 1) ≤ t'.console.output.length) ∧
    ((∀ a, (s.memPeek a).extractLsb' 0 8 ≠ 0x00#8 ∧ (s.memPeek a).extractLsb' 8 8 ≠ 0x00#8) →
      ∃ t, exec (.putsp u) s = .next t ∧
        ∀ k, ∃ t', Host.Core.run Sys2Proof.core k t = .next t' ∧ t'.engine = .running ∧ (∃ p, t'.phase = .putsp p) ∧
          t'.gpr = s.gpr.set (7 : Reg) ⟨s.pc, true⟩ ∧ t'.mem = s.mem ∧ t'.pc = s.pc ∧ t'.cond = s.cond ∧
          s.console.output.length + 65536 * (k + 1) ≤ t'.console.output.length)

/-- HALT (R207): the notice, delivered, and the normal end with exit code 0. -/
def Obligations.HaltResult : Prop :=
  ∀ (u : BitVec 4) (s : State),
    (∀ op : BitVec 4, s.params.opcodeMap.opcode op = .trap →
      decode s.params.opcodeMap (op ++ u ++ 0x25#8) = .halt u) ∧
    ∃ t, exec (.halt u) s = .next t ∧
      t = { s with
        gpr := s.gpr.set (7 : Reg) ⟨s.pc, true⟩
        engine := .halted .haltTrap
        console := { s.console with
          output := s.console.output ++ s.params.haltNotice
          delivered := (s.console.output ++ s.params.haltNotice).length } } ∧
      t.normalEnd ∧ t.exitCode = some 0

/-- A vector outside 0x20-0x25 (R208): R7 written, then the fatal halt with the address and the vector, no output. -/
def Obligations.UnhandledTrapHalts : Prop :=
  ∀ (u : BitVec 4) (vect : BitVec 8) (s : State), vect.toNat < 0x20 ∨ 0x25 < vect.toNat →
    (∀ op : BitVec 4, s.params.opcodeMap.opcode op = .trap →
      decode s.params.opcodeMap (op ++ u ++ vect) = .trap u vect) ∧
    exec (.trap u vect) s = .next { s with
      gpr := s.gpr.set (7 : Reg) ⟨s.pc, true⟩
      engine := .halted (.unhandledTrap (s.pc - 1#16) vect) }

/-! ### Reserved opcodes and the status interface -/

/-- RTI and RES, whatever their low bits (R240, R241): their encodings, and the fatal halt with the address and the opcode.
The recorded opcode is the value of RTI or RES in `OPCODE_MAP` (R6), so under a legal map `instr[15:12]` (R251); it is
the rules' 0x8 or 0xD in the reset state's map, the spec's presumed numbering (log 1). -/
def Obligations.InvalidOpcodesHalt : Prop :=
  (∀ (u : BitVec 12) (s : State),
    exec (.rti u) s =
      .next { s with engine := .halted (.invalidOpcode (s.pc - 1#16) (s.params.opcodeMap.value .rti)) } ∧
    exec (.res u) s =
      .next { s with engine := .halted (.invalidOpcode (s.pc - 1#16) (s.params.opcodeMap.value .res)) }) ∧
  (∀ (m : OpcodeMap) (op : BitVec 4) (u : BitVec 12),
    (m.opcode op = .rti → decode m (op ++ u) = .rti u) ∧ (m.opcode op = .res → decode m (op ++ u) = .res u) ∧
    (m.Legal → m.opcode op = .rti → m.value .rti = op) ∧ (m.Legal → m.opcode op = .res → m.value .res = op)) ∧
  (State.reset.params.opcodeMap.value .rti = 0x8#4 ∧ State.reset.params.opcodeMap.value .res = 0xD#4)

/-- The exit codes (R41) under legal parameters: 0 for HALT only; a fatal halt's is non-zero; none for an abort. The
codes of the halt reasons and fault kinds (R251). -/
def Obligations.ExitCodes : Prop :=
  (∀ s : State, Legal s.params →
    (s.exitCode = some 0 ↔ s.normalEnd) ∧
    (∀ a op, s.engine = .halted (.invalidOpcode a op) → ∃ c, c ≠ 0 ∧ s.exitCode = some c) ∧
    (∀ a v, s.engine = .halted (.unhandledTrap a v) → ∃ c, c ≠ 0 ∧ s.exitCode = some c) ∧
    (s.engine = .halted .aborted → s.exitCode = none)) ∧
  (HaltReason.haltTrap.code = 0 ∧ (∀ a op, (HaltReason.invalidOpcode a op).code = 1) ∧
    (∀ a v, (HaltReason.unhandledTrap a v).code = 2) ∧ HaltReason.aborted.code = 3) ∧
  ((∀ i, (FaultKind.unwrittenRegister i).code = 0) ∧ FaultKind.unsetCond.code = 1 ∧ FaultKind.reservedBits.code = 2)

/-! ### Reset and the loader -/

/-- The reset state. The spec's: RUNNING, memory 0x0000, COND unset, no output (R52). The model's choices, no rule of
the spec: R0-R7 written with zeros (log 3), PC 0x3000 (log 5). -/
def Obligations.ResetValues : Prop :=
  State.reset.engine = .running ∧ State.reset.phase = .idle ∧ (∀ a, State.reset.memPeek a = 0x0000#16) ∧
  State.reset.cond.written = false ∧ State.reset.console.output = [] ∧
  (∀ r : Reg, State.reset.gpr[r] = ⟨0x0000#16, true⟩) ∧ State.reset.pc = 0x3000#16

/-- The state at the start of the first cycle of a run with one image and no `GPR_INIT` (R52): every register unwritten,
PC the origin, COND unset, RUNNING, the image's Words in place, 0x0000 elsewhere, the host's input unconsumed. -/
def Obligations.LaunchOfOneImage : Prop :=
  ∀ (p : Params) (img : Image) (input : List Byte) (ended : Bool), img.fits = true →
    ∃ s, launchImage p img none input ended = .ok s ∧
      (∀ r : Reg, s.gpr[r].written = false) ∧ s.pc = img.origin ∧ s.cond.written = false ∧ s.engine = .running ∧
      s.phase = .idle ∧ s.console.output = [] ∧ s.console.input = input ∧ s.console.inputEnded = ended ∧ s.params = p ∧
      (∀ k w, img.words[k]? = some w → s.memPeek (img.origin + BitVec.ofNat 16 k) = w) ∧
      (∀ a : Word, a.toNat < img.origin.toNat ∨ img.origin.toNat + img.words.length ≤ a.toNat →
        s.memPeek a = 0x0000#16)

/-- The image file (R80): the origin, then the Words, each the big-endian pair of its two bytes. -/
def Obligations.ImageFileIsBigEndian : Prop :=
  ∀ (file : List Byte) (img : Image), parseImage file = .ok img →
    file.length = 2 * (img.words.length + 1) ∧
    (∀ hi lo, file[0]? = some hi → file[1]? = some lo → img.origin = hi ++ lo) ∧
    (∀ k w hi lo, img.words[k]? = some w → file[2 * (k + 1)]? = some hi → file[2 * (k + 1) + 1]? = some lo →
      w = hi ++ lo)

/-- Several images (R81): where two cover one address the later one's Word stays, and an earlier image's Words stay
where no later one covers them. -/
def Obligations.LaterImageStays : Prop :=
  ∀ (m : Memory) (first second : Image), m.wf = true → first.fits = true → second.fits = true →
    ∃ m', m.loadImages [first, second] = .ok m' ∧
      (∀ k w, second.words[k]? = some w → m'.read (second.origin.toNat + k) = w) ∧
      (∀ k w, first.words[k]? = some w →
        first.origin.toNat + k < second.origin.toNat ∨
          second.origin.toNat + second.words.length ≤ first.origin.toNat + k →
        m'.read (first.origin.toNat + k) = w)

/-- The load errors (R82): an odd number of bytes, fewer than two bytes, an image past 0xFFFF; no state comes of them. An
origin with no Words is no error. -/
def Obligations.LoadErrorsRefuseTheLaunch : Prop :=
  (∀ file : List Byte, file.length % 2 = 1 ∨ file.length < 2 → ∃ e, parseImage file = .error e) ∧
  (∀ file : List Byte, file.length % 2 = 0 → 2 ≤ file.length → ∃ img, parseImage file = .ok img) ∧
  (∀ (p : Params) (l : Launch) (img : Image), img ∈ l.images → 65536 < img.origin.toNat + img.words.length →
    launch p l = .error .pastEnd) ∧
  (∀ (m : Memory) (origin : Word), m.loadImages [⟨origin, []⟩] = .ok m)
end

