-- ==== Sys2Proof/Laws/Decode.lean ====
section
/-! SUPPORT. The laws of an `OPCODE_MAP` (spec/00_scope.md R6, spec/30_encoding.md R92): a legal map gives each opcode one
value, so the two lookups undo each other. And what a bit and a field of a placed field are (spec/30_encoding.md R93). -/

namespace Sys2Proof

variable {m : OpcodeMap}

theorem OpcodeMap.opcode_eq_getElem (m : OpcodeMap) (op : BitVec 4) :
    m.opcode op = m.toList[op.toNat]'(by simpa using op.isLt) := by
  simp [OpcodeMap.opcode]

/-- The value of the opcode that a legal map has at `op` is `op`. -/
theorem OpcodeMap.value_opcode (h : m.Legal) (op : BitVec 4) : m.value (m.opcode op) = op := by
  rw [OpcodeMap.value, OpcodeMap.opcode_eq_getElem, h.idxOf_getElem]
  simp

/-- Every opcode is one of the 16. -/
theorem Opcode.mem_standard (o : Opcode) : o ∈ standardOpcodeMap.toList := by
  cases o <;> decide

/-- A legal map leaves no opcode out. -/
theorem OpcodeMap.mem_of_legal (h : m.Legal) (o : Opcode) : o ∈ m.toList := by
  have hsub : m.toList.Subperm standardOpcodeMap.toList :=
    List.subperm_of_subset h fun o _ => o.mem_standard
  exact (hsub.perm_of_length_le (by simp)).mem_iff.mpr o.mem_standard

/-- A legal map has at an opcode's value that opcode. -/
theorem OpcodeMap.opcode_value (h : m.Legal) (o : Opcode) : m.opcode (m.value o) = o := by
  have hlt : m.toList.idxOf o < 16 := by
    simpa using List.idxOf_lt_length_iff.mpr (OpcodeMap.mem_of_legal h o)
  have hval : (m.value o).toNat = m.toList.idxOf o := by
    rw [OpcodeMap.value, BitVec.toNat_ofNat]
    exact Nat.mod_eq_of_lt hlt
  rw [OpcodeMap.opcode_eq_getElem]
  simp only [hval]
  exact List.getElem_idxOf _

/-- The opcode at `op` is `o` exactly when `op` is the value of `o`. -/
theorem OpcodeMap.opcode_eq_iff (h : m.Legal) (op : BitVec 4) (o : Opcode) : m.opcode op = o ↔ op = m.value o :=
  ⟨fun e => by rw [← e, OpcodeMap.value_opcode h], fun e => by rw [e, OpcodeMap.opcode_value h]⟩

theorem standardOpcodeMap_legal : standardOpcodeMap.Legal := by decide

/-- Bit `k` of a placed field. -/
theorem getLsbD_place {n : Nat} (lo : Nat) (v : BitVec n) (k : Nat) :
    (place lo v).getLsbD k = (decide (k < 16) && decide (lo ≤ k) && v.getLsbD (k - lo)) := by
  unfold place
  by_cases h16 : k < 16 <;> by_cases hlo : lo ≤ k <;> simp [h16, hlo]

/-- A placed field read back at its own place. -/
@[simp] theorem extractLsb'_place_same {n : Nat} (lo : Nat) (v : BitVec n) (h : lo + n ≤ 16) :
    (place lo v).extractLsb' lo n = v := by
  apply BitVec.eq_of_getLsbD_eq
  intro k hk
  have : lo + k < 16 := by omega
  simp [BitVec.getLsbD_extractLsb', getLsbD_place, hk, this, -BitVec.getLsbD_eq_getElem]

/-- A placed field leaves the fields beside it zero. -/
@[simp] theorem extractLsb'_place_other {n lo' : Nat} (lo k : Nat) (v : BitVec n) (h : lo + k ≤ lo' ∨ lo' + n ≤ lo) :
    (place lo' v).extractLsb' lo k = 0#k := by
  apply BitVec.eq_of_getLsbD_eq
  intro j hj
  rcases h with h | h
  · have : ¬ lo' ≤ lo + j := by omega
    simp [BitVec.getLsbD_extractLsb', getLsbD_place, this, -BitVec.getLsbD_eq_getElem]
  · have : n ≤ lo + j - lo' := by omega
    simp [BitVec.getLsbD_extractLsb', getLsbD_place, BitVec.getLsbD_of_ge _ _ this, -BitVec.getLsbD_eq_getElem]

@[simp] theorem toFin_regBits (r : Reg) : (regBits r).toFin = r := rfl

@[simp] theorem regBits_regField (w : Word) (lo : Nat) : regBits (regField w lo) = w.extractLsb' lo 3 := rfl

/-- The Word of a TRAP row, whichever constructor its vector gives. -/
theorem encode_decodeTrap (m : OpcodeMap) (u : BitVec 4) (vect : BitVec 8) :
    encode m (decodeTrap u vect) = place 12 (m.value .trap) ||| place 8 u ||| place 0 vect := by
  unfold decodeTrap
  repeat' split
  all_goals simp_all [encode]

/-- The Word of a JMP row, RET among them. -/
theorem encode_decodeJmp (m : OpcodeMap) (hi : BitVec 3) (base : Reg) (lo : BitVec 6) :
    encode m (decodeJmp hi base lo) =
      place 12 (m.value .jmp) ||| place 9 hi ||| place 6 (regBits base) ||| place 0 lo := by
  unfold decodeJmp
  split
  · rename_i h
    obtain ⟨rfl, rfl, rfl⟩ := h
    simp [encode, place, regBits]
  · simp [encode]

/-- The opcode of a Word whose top field is the value of `o`. -/
theorem opcodeOf_of_value (h : m.Legal) {w : Word} {o : Opcode} (hw : w.extractLsb' 12 4 = m.value o) :
    opcodeOf m w = o := by
  rw [opcodeOf, hw, OpcodeMap.opcode_value h]

/-- The table decoder reads one 16-bit Word and nothing of another size (spec/30_encoding.md R90). -/
theorem decodeTableWord_eq_some {nbits w : Nat} {i : Instr} :
    decodeTableWord nbits w = some i ↔
      nbits = 16 ∧ w < 2 ^ 16 ∧ decode standardOpcodeMap (BitVec.ofNat 16 w) = i := by
  simp [decodeTableWord, and_assoc]

end Sys2Proof
end

