-- ==== Sys2Proof/Laws/Memory.lean ====
section
/-! SUPPORT. The laws of memory: read after write, the canonical form kept, equal reads give equal memories. -/

namespace Sys2Proof.Machine

/-! ### The canonical form, one entry at a time -/

theorem Memory.wfFrom_cons (lo a : Nat) (v : Word) (rest : Memory) :
    Memory.wfFrom lo ((a, v) :: rest) = true ↔
      lo ≤ a ∧ a < 65536 ∧ v ≠ unlistedWord ∧ Memory.wfFrom (a + 1) rest = true := by
  simp [Memory.wfFrom, and_assoc]

theorem Memory.wfFrom_mono {lo lo' : Nat} (h : lo' ≤ lo) :
    ∀ {m : Memory}, Memory.wfFrom lo m = true → Memory.wfFrom lo' m = true
  | [], _ => rfl
  | (a, v) :: rest, hm => by
    rw [Memory.wfFrom_cons] at hm ⊢
    exact ⟨by omega, hm.2⟩

@[simp] theorem Memory.wf_nil : Memory.wf [] = true := rfl

/-! ### Reading -/

@[simp] theorem Memory.read_nil (a : Nat) : Memory.read [] a = unlistedWord := rfl

/-- Below the first listed address every Word is unlisted. -/
theorem Memory.read_of_lt {a : Nat} : ∀ {m : Memory} {lo : Nat}, Memory.wfFrom lo m = true → a < lo →
    Memory.read m a = unlistedWord
  | [], _, _, _ => rfl
  | (b, v) :: rest, lo, hm, h => by
    rw [Memory.wfFrom_cons] at hm
    rw [Memory.read, if_neg (by omega)]
    exact Memory.read_of_lt hm.2.2.2 (by omega)

/-- At and above 65536 nothing is listed. -/
theorem Memory.read_of_ge {a : Nat} (h : 65536 ≤ a) : ∀ {m : Memory} {lo : Nat}, Memory.wfFrom lo m = true →
    Memory.read m a = unlistedWord
  | [], _, _ => rfl
  | (b, v) :: rest, lo, hm => by
    rw [Memory.wfFrom_cons] at hm
    rw [Memory.read, if_neg (by omega)]
    exact Memory.read_of_ge h hm.2.2.2

/-! ### Erasing and inserting -/

theorem Memory.wfFrom_erase (a : Nat) : ∀ {m : Memory} {lo : Nat}, Memory.wfFrom lo m = true →
    Memory.wfFrom lo (m.erase a) = true
  | [], _, _ => rfl
  | (b, v) :: rest, lo, hm => by
    rw [Memory.wfFrom_cons] at hm
    rw [Memory.erase]
    split
    · exact Memory.wfFrom_mono (by omega) hm.2.2.2
    · rw [Memory.wfFrom_cons]
      exact ⟨hm.1, hm.2.1, hm.2.2.1, Memory.wfFrom_erase a hm.2.2.2⟩

theorem Memory.read_erase_self (a : Nat) : ∀ {m : Memory} {lo : Nat}, Memory.wfFrom lo m = true →
    (m.erase a).read a = unlistedWord
  | [], _, _ => rfl
  | (b, v) :: rest, lo, hm => by
    rw [Memory.wfFrom_cons] at hm
    rw [Memory.erase]
    split
    next h => exact Memory.read_of_lt hm.2.2.2 (by omega)
    next h =>
      rw [Memory.read, if_neg h]
      exact Memory.read_erase_self a hm.2.2.2

theorem Memory.read_erase_of_ne {a b : Nat} (h : b ≠ a) : ∀ {m : Memory}, (m.erase a).read b = m.read b
  | [] => rfl
  | (c, v) :: rest => by
    rw [Memory.erase]
    split
    next hc => rw [Memory.read, if_neg (by omega)]
    next hc => simp only [Memory.read, Memory.read_erase_of_ne h]

theorem Memory.wfFrom_insert {a : Nat} {v : Word} (ha : a < 65536) (hv : v ≠ unlistedWord) :
    ∀ {m : Memory} {lo : Nat}, Memory.wfFrom lo m = true → lo ≤ a → Memory.wfFrom lo (m.insert a v) = true
  | [], lo, _, h => by
    rw [Memory.insert, Memory.wfFrom_cons]
    exact ⟨h, ha, hv, rfl⟩
  | (b, w) :: rest, lo, hm, h => by
    rw [Memory.wfFrom_cons] at hm
    rw [Memory.insert]
    split
    · simp only [Memory.wfFrom_cons]
      exact ⟨h, ha, hv, by omega, hm.2⟩
    · split
      next hb =>
        rw [Memory.wfFrom_cons]
        exact ⟨h, ha, hv, by rw [hb]; exact hm.2.2.2⟩
      next hb =>
        rw [Memory.wfFrom_cons]
        exact ⟨hm.1, hm.2.1, hm.2.2.1, Memory.wfFrom_insert ha hv hm.2.2.2 (by omega)⟩

@[simp] theorem Memory.read_insert_self (a : Nat) (v : Word) : ∀ m : Memory, (m.insert a v).read a = v
  | [] => by simp [Memory.insert, Memory.read]
  | (b, w) :: rest => by
    rw [Memory.insert]
    split
    · simp [Memory.read]
    · split
      · simp [Memory.read]
      next h => rw [Memory.read, if_neg h, Memory.read_insert_self]

theorem Memory.read_insert_of_ne {a b : Nat} (v : Word) (h : b ≠ a) :
    ∀ m : Memory, (m.insert a v).read b = m.read b
  | [] => by simp [Memory.insert, Memory.read, h]
  | (c, w) :: rest => by
    rw [Memory.insert]
    split
    · rw [Memory.read, if_neg h]
    · split
      next hc =>
        rw [Memory.read, if_neg h, Memory.read, if_neg (by omega)]
      next hc => simp only [Memory.read, Memory.read_insert_of_ne v h rest]

/-! ### Writing (spec/20_memory.md R64, R73) -/

theorem Memory.wf_write {m : Memory} (hm : m.wf = true) {a : Nat} (ha : a < 65536) (v : Word) :
    (m.write a v).wf = true := by
  rw [Memory.write]
  split
  · exact Memory.wfFrom_erase a hm
  next hv => exact Memory.wfFrom_insert ha hv hm (Nat.zero_le a)

/-- Writing at the address a Word holds keeps the form. -/
theorem Memory.wf_write_word {m : Memory} (hm : m.wf = true) (a v : Word) : (m.write a.toNat v).wf = true :=
  Memory.wf_write hm a.isLt v

theorem Memory.read_write_self {m : Memory} (hm : m.wf = true) (a : Nat) (v : Word) : (m.write a v).read a = v := by
  rw [Memory.write]
  split
  next hv => rw [hv]; exact Memory.read_erase_self a hm
  · exact Memory.read_insert_self a v m

theorem Memory.read_write_of_ne (m : Memory) {a b : Nat} (v : Word) (h : b ≠ a) : (m.write a v).read b = m.read b := by
  rw [Memory.write]
  split
  · exact Memory.read_erase_of_ne h
  · exact Memory.read_insert_of_ne v h m

/-! ### Equal reads, equal memories -/

theorem Memory.eq_of_read_eq : ∀ {m n : Memory} {lo lo' : Nat}, Memory.wfFrom lo m = true → Memory.wfFrom lo' n = true →
    (∀ a, m.read a = n.read a) → m = n
  | [], [], _, _, _, _, _ => rfl
  | [], (b, w) :: rest, _, _, _, hn, h => by
    rw [Memory.wfFrom_cons] at hn
    have := h b
    simp [Memory.read] at this
    exact absurd this.symm hn.2.2.1
  | (a, v) :: rest, [], _, _, hm, _, h => by
    rw [Memory.wfFrom_cons] at hm
    have := h a
    simp [Memory.read] at this
    exact absurd this hm.2.2.1
  | (a, v) :: m, (b, w) :: n, _, _, hm, hn, h => by
    rw [Memory.wfFrom_cons] at hm hn
    have hab : a = b := by
      rcases Nat.lt_trichotomy a b with hlt | heq | hgt
      · have := h a
        rw [Memory.read, if_pos rfl, Memory.read, if_neg (by omega), Memory.read_of_lt hn.2.2.2 (by omega)] at this
        exact absurd this hm.2.2.1
      · exact heq
      · have := h b
        rw [Memory.read, if_neg (by omega), Memory.read_of_lt hm.2.2.2 (by omega), Memory.read, if_pos rfl] at this
        exact absurd this.symm hn.2.2.1
    subst hab
    have hvw : v = w := by simpa [Memory.read] using h a
    subst hvw
    have hrest : ∀ c, Memory.read m c = Memory.read n c := by
      intro c
      by_cases hc : c = a
      · subst hc
        rw [Memory.read_of_lt hm.2.2.2 (by omega), Memory.read_of_lt hn.2.2.2 (by omega)]
      · simpa [Memory.read, hc] using h c
    rw [Memory.eq_of_read_eq hm.2.2.2 hn.2.2.2 hrest]

/-! ### The loader's stores keep the form (R80) -/

theorem Memory.wf_storeFrom : ∀ (ws : List Word) {m : Memory} {a : Nat}, m.wf = true → a + ws.length ≤ 65536 →
    (m.storeFrom a ws).wf = true
  | [], _, _, hm, _ => hm
  | w :: ws, m, a, hm, h => by
    rw [Memory.storeFrom]
    simp only [List.length_cons] at h
    exact Memory.wf_storeFrom ws (Memory.wf_write hm (by omega) w) (by omega)

theorem Memory.read_storeFrom_of_lt : ∀ (ws : List Word) (m : Memory) {a b : Nat}, b < a →
    (m.storeFrom a ws).read b = m.read b
  | [], _, _, _, _ => rfl
  | w :: ws, m, a, b, h => by
    rw [Memory.storeFrom, Memory.read_storeFrom_of_lt ws _ (by omega), Memory.read_write_of_ne _ _ (by omega)]

theorem Memory.read_storeFrom_of_ge : ∀ (ws : List Word) (m : Memory) {a b : Nat}, a + ws.length ≤ b →
    (m.storeFrom a ws).read b = m.read b
  | [], _, _, _, _ => rfl
  | w :: ws, m, a, b, h => by
    simp only [List.length_cons] at h
    rw [Memory.storeFrom, Memory.read_storeFrom_of_ge ws _ (by omega), Memory.read_write_of_ne _ _ (by omega)]

end Sys2Proof.Machine
end

