-- ==== Sys2Proof/Laws/State.lean ====
section
/-! SUPPORT. One lemma per field per update of the state, so that no proof unfolds a record update. -/

namespace Sys2Proof.Machine

variable (s : State)

/-! ### `State.enter` -/

@[simp] theorem State.enter_gpr (e : Engine) : (s.enter e).gpr = s.gpr := rfl
@[simp] theorem State.enter_pc (e : Engine) : (s.enter e).pc = s.pc := rfl
@[simp] theorem State.enter_cond (e : Engine) : (s.enter e).cond = s.cond := rfl
@[simp] theorem State.enter_mem (e : Engine) : (s.enter e).mem = s.mem := rfl
@[simp] theorem State.enter_engine (e : Engine) : (s.enter e).engine = e := rfl
@[simp] theorem State.enter_phase (e : Engine) : (s.enter e).phase = s.phase := rfl
@[simp] theorem State.enter_console (e : Engine) : (s.enter e).console = s.console := rfl
@[simp] theorem State.enter_abortSignal (e : Engine) : (s.enter e).abortSignal = s.abortSignal := rfl
@[simp] theorem State.enter_params (e : Engine) : (s.enter e).params = s.params := rfl

/-! ### `State.writeReg` -/

@[simp] theorem State.writeReg_gpr (i : Reg) (v : Word) : (s.writeReg i v).gpr = s.gpr.set i ⟨v, true⟩ := rfl
@[simp] theorem State.writeReg_pc (i : Reg) (v : Word) : (s.writeReg i v).pc = s.pc := rfl
@[simp] theorem State.writeReg_cond (i : Reg) (v : Word) : (s.writeReg i v).cond = s.cond := rfl
@[simp] theorem State.writeReg_mem (i : Reg) (v : Word) : (s.writeReg i v).mem = s.mem := rfl
@[simp] theorem State.writeReg_engine (i : Reg) (v : Word) : (s.writeReg i v).engine = s.engine := rfl
@[simp] theorem State.writeReg_phase (i : Reg) (v : Word) : (s.writeReg i v).phase = s.phase := rfl
@[simp] theorem State.writeReg_console (i : Reg) (v : Word) : (s.writeReg i v).console = s.console := rfl
@[simp] theorem State.writeReg_abortSignal (i : Reg) (v : Word) : (s.writeReg i v).abortSignal = s.abortSignal := rfl
@[simp] theorem State.writeReg_params (i : Reg) (v : Word) : (s.writeReg i v).params = s.params := rfl

/-! ### `State.setPc` -/

@[simp] theorem State.setPc_gpr (a : Word) : (s.setPc a).gpr = s.gpr := rfl
@[simp] theorem State.setPc_pc (a : Word) : (s.setPc a).pc = a := rfl
@[simp] theorem State.setPc_cond (a : Word) : (s.setPc a).cond = s.cond := rfl
@[simp] theorem State.setPc_mem (a : Word) : (s.setPc a).mem = s.mem := rfl
@[simp] theorem State.setPc_engine (a : Word) : (s.setPc a).engine = s.engine := rfl
@[simp] theorem State.setPc_phase (a : Word) : (s.setPc a).phase = s.phase := rfl
@[simp] theorem State.setPc_console (a : Word) : (s.setPc a).console = s.console := rfl
@[simp] theorem State.setPc_abortSignal (a : Word) : (s.setPc a).abortSignal = s.abortSignal := rfl
@[simp] theorem State.setPc_params (a : Word) : (s.setPc a).params = s.params := rfl

/-! ### `State.setCC` -/

@[simp] theorem State.setCC_gpr (v : Word) : (s.setCC v).gpr = s.gpr := rfl
@[simp] theorem State.setCC_pc (v : Word) : (s.setCC v).pc = s.pc := rfl
@[simp] theorem State.setCC_cond (v : Word) : (s.setCC v).cond = ⟨condOf s.params v, true⟩ := rfl
@[simp] theorem State.setCC_mem (v : Word) : (s.setCC v).mem = s.mem := rfl
@[simp] theorem State.setCC_engine (v : Word) : (s.setCC v).engine = s.engine := rfl
@[simp] theorem State.setCC_phase (v : Word) : (s.setCC v).phase = s.phase := rfl
@[simp] theorem State.setCC_console (v : Word) : (s.setCC v).console = s.console := rfl
@[simp] theorem State.setCC_abortSignal (v : Word) : (s.setCC v).abortSignal = s.abortSignal := rfl
@[simp] theorem State.setCC_params (v : Word) : (s.setCC v).params = s.params := rfl

/-! ### `State.withConsole` -/

@[simp] theorem State.withConsole_gpr (c : Console) : (s.withConsole c).gpr = s.gpr := rfl
@[simp] theorem State.withConsole_pc (c : Console) : (s.withConsole c).pc = s.pc := rfl
@[simp] theorem State.withConsole_cond (c : Console) : (s.withConsole c).cond = s.cond := rfl
@[simp] theorem State.withConsole_mem (c : Console) : (s.withConsole c).mem = s.mem := rfl
@[simp] theorem State.withConsole_engine (c : Console) : (s.withConsole c).engine = s.engine := rfl
@[simp] theorem State.withConsole_phase (c : Console) : (s.withConsole c).phase = s.phase := rfl
@[simp] theorem State.withConsole_console (c : Console) : (s.withConsole c).console = c := rfl
@[simp] theorem State.withConsole_abortSignal (c : Console) : (s.withConsole c).abortSignal = s.abortSignal := rfl
@[simp] theorem State.withConsole_params (c : Console) : (s.withConsole c).params = s.params := rfl

/-! ### `State.setPhase` -/

@[simp] theorem State.setPhase_gpr (p : Phase) : (s.setPhase p).gpr = s.gpr := rfl
@[simp] theorem State.setPhase_pc (p : Phase) : (s.setPhase p).pc = s.pc := rfl
@[simp] theorem State.setPhase_cond (p : Phase) : (s.setPhase p).cond = s.cond := rfl
@[simp] theorem State.setPhase_mem (p : Phase) : (s.setPhase p).mem = s.mem := rfl
@[simp] theorem State.setPhase_engine (p : Phase) : (s.setPhase p).engine = s.engine := rfl
@[simp] theorem State.setPhase_phase (p : Phase) : (s.setPhase p).phase = p := rfl
@[simp] theorem State.setPhase_console (p : Phase) : (s.setPhase p).console = s.console := rfl
@[simp] theorem State.setPhase_abortSignal (p : Phase) : (s.setPhase p).abortSignal = s.abortSignal := rfl
@[simp] theorem State.setPhase_params (p : Phase) : (s.setPhase p).params = s.params := rfl

/-! ### `State.memWrite` -/

@[simp] theorem State.memWrite_gpr (a v : Word) : (s.memWrite a v).gpr = s.gpr := rfl
@[simp] theorem State.memWrite_pc (a v : Word) : (s.memWrite a v).pc = s.pc := rfl
@[simp] theorem State.memWrite_cond (a v : Word) : (s.memWrite a v).cond = s.cond := rfl
@[simp] theorem State.memWrite_mem (a v : Word) : (s.memWrite a v).mem = s.mem.write a.toNat v := rfl
@[simp] theorem State.memWrite_engine (a v : Word) : (s.memWrite a v).engine = s.engine := rfl
@[simp] theorem State.memWrite_phase (a v : Word) : (s.memWrite a v).phase = s.phase := rfl
@[simp] theorem State.memWrite_console (a v : Word) : (s.memWrite a v).console = s.console := rfl
@[simp] theorem State.memWrite_abortSignal (a v : Word) : (s.memWrite a v).abortSignal = s.abortSignal := rfl
@[simp] theorem State.memWrite_params (a v : Word) : (s.memWrite a v).params = s.params := rfl

/-! ### `State.put` -/

@[simp] theorem State.put_gpr (bs : List Byte) : (s.put bs).gpr = s.gpr := rfl
@[simp] theorem State.put_pc (bs : List Byte) : (s.put bs).pc = s.pc := rfl
@[simp] theorem State.put_cond (bs : List Byte) : (s.put bs).cond = s.cond := rfl
@[simp] theorem State.put_mem (bs : List Byte) : (s.put bs).mem = s.mem := rfl
@[simp] theorem State.put_engine (bs : List Byte) : (s.put bs).engine = s.engine := rfl
@[simp] theorem State.put_phase (bs : List Byte) : (s.put bs).phase = s.phase := rfl
@[simp] theorem State.put_console (bs : List Byte) : (s.put bs).console = s.console.put bs := rfl
@[simp] theorem State.put_abortSignal (bs : List Byte) : (s.put bs).abortSignal = s.abortSignal := rfl
@[simp] theorem State.put_params (bs : List Byte) : (s.put bs).params = s.params := rfl

/-! ### `State.flush` -/

@[simp] theorem State.flush_gpr : s.flush.gpr = s.gpr := rfl
@[simp] theorem State.flush_pc : s.flush.pc = s.pc := rfl
@[simp] theorem State.flush_cond : s.flush.cond = s.cond := rfl
@[simp] theorem State.flush_mem : s.flush.mem = s.mem := rfl
@[simp] theorem State.flush_engine : s.flush.engine = s.engine := rfl
@[simp] theorem State.flush_phase : s.flush.phase = s.phase := rfl
@[simp] theorem State.flush_console : s.flush.console = s.console.flush := rfl
@[simp] theorem State.flush_abortSignal : s.flush.abortSignal = s.abortSignal := rfl
@[simp] theorem State.flush_params : s.flush.params = s.params := rfl

/-! ### `State.writeResult` and `State.link` -/

@[simp] theorem State.writeResult_gpr (dr : Reg) (v : Word) : (s.writeResult dr v).gpr = s.gpr.set dr ⟨v, true⟩ := rfl
@[simp] theorem State.writeResult_pc (dr : Reg) (v : Word) : (s.writeResult dr v).pc = s.pc := rfl
@[simp] theorem State.writeResult_cond (dr : Reg) (v : Word) : (s.writeResult dr v).cond = ⟨condOf s.params v, true⟩ := rfl
@[simp] theorem State.writeResult_mem (dr : Reg) (v : Word) : (s.writeResult dr v).mem = s.mem := rfl
@[simp] theorem State.writeResult_engine (dr : Reg) (v : Word) : (s.writeResult dr v).engine = s.engine := rfl
@[simp] theorem State.writeResult_phase (dr : Reg) (v : Word) : (s.writeResult dr v).phase = s.phase := rfl
@[simp] theorem State.writeResult_console (dr : Reg) (v : Word) : (s.writeResult dr v).console = s.console := rfl
@[simp] theorem State.writeResult_abortSignal (dr : Reg) (v : Word) : (s.writeResult dr v).abortSignal = s.abortSignal := rfl
@[simp] theorem State.writeResult_params (dr : Reg) (v : Word) : (s.writeResult dr v).params = s.params := rfl

@[simp] theorem State.link_gpr : s.link.gpr = s.gpr.set (7 : Reg) ⟨s.pc, true⟩ := rfl
@[simp] theorem State.link_pc : s.link.pc = s.pc := rfl
@[simp] theorem State.link_cond : s.link.cond = s.cond := rfl
@[simp] theorem State.link_mem : s.link.mem = s.mem := rfl
@[simp] theorem State.link_engine : s.link.engine = s.engine := rfl
@[simp] theorem State.link_phase : s.link.phase = s.phase := rfl
@[simp] theorem State.link_console : s.link.console = s.console := rfl
@[simp] theorem State.link_abortSignal : s.link.abortSignal = s.abortSignal := rfl
@[simp] theorem State.link_params : s.link.params = s.params := rfl

/-! ### Console updates -/

@[simp] theorem Console.put_input (c : Console) (bs : List Byte) : (c.put bs).input = c.input := rfl
@[simp] theorem Console.put_inputEnded (c : Console) (bs : List Byte) : (c.put bs).inputEnded = c.inputEnded := rfl
@[simp] theorem Console.put_polls (c : Console) (bs : List Byte) : (c.put bs).polls = c.polls := rfl
@[simp] theorem Console.put_pollCount (c : Console) (bs : List Byte) : (c.put bs).pollCount = c.pollCount := rfl
@[simp] theorem Console.put_output (c : Console) (bs : List Byte) : (c.put bs).output = c.output ++ bs := rfl
@[simp] theorem Console.put_delivered (c : Console) (bs : List Byte) : (c.put bs).delivered = c.delivered := rfl
@[simp] theorem Console.flush_input (c : Console) : c.flush.input = c.input := rfl
@[simp] theorem Console.flush_inputEnded (c : Console) : c.flush.inputEnded = c.inputEnded := rfl
@[simp] theorem Console.flush_polls (c : Console) : c.flush.polls = c.polls := rfl
@[simp] theorem Console.flush_pollCount (c : Console) : c.flush.pollCount = c.pollCount := rfl
@[simp] theorem Console.flush_output (c : Console) : c.flush.output = c.output := rfl
@[simp] theorem Console.flush_delivered (c : Console) : c.flush.delivered = c.output.length := rfl

/-! ### The free reads of the state -/

@[simp] theorem State.memRead_fst (a : Word) : (s.memRead a).1 = (s.touch a).memPeek a := rfl
@[simp] theorem State.memRead_snd (a : Word) : (s.memRead a).2 = s.touch a := rfl
@[simp] theorem State.fetch_fst : s.fetch.1 = (s.touch s.pc).memPeek s.pc := rfl
@[simp] theorem State.fetch_snd : s.fetch.2 = (s.touch s.pc).setPc (s.pc + 1#16) := rfl

end Sys2Proof.Machine
end

