-- ==== Sys2Proof/Laws/Ops.lean ====
section
/-! SUPPORT. One specification lemma per shared operation: what it can do, and what it leaves. -/

namespace Sys2Proof.Machine

/-! ### Reading a register (spec/10_state.md R33) -/

theorem State.readReg_written {s : State} {i : Reg} (h : s.gpr[i].written = true) (k : Word → Result) :
    s.readReg i k = k s.gpr[i].value := by
  rw [State.readReg, if_pos h]

theorem State.readReg_unwritten {s : State} {i : Reg} (h : s.gpr[i].written = false) (k : Word → Result) :
    s.readReg i k = .next (s.enter (.faulted (.unwrittenRegister i) s.instrAddr)) := by
  rw [State.readReg, if_neg (by simpa using h), State.raiseFault]

/-- All that reading a register can come to. -/
theorem State.readReg_cases {s t : State} {i : Reg} {k : Word → Result} (h : s.readReg i k = .next t) :
    (s.gpr[i].written = true ∧ k s.gpr[i].value = .next t) ∨
      (s.gpr[i].written = false ∧ t = s.enter (.faulted (.unwrittenRegister i) s.instrAddr)) := by
  cases hw : s.gpr[i].written with
  | true => exact .inl ⟨rfl, by rwa [State.readReg_written hw] at h⟩
  | false =>
    rw [State.readReg_unwritten hw] at h
    exact .inr ⟨rfl, (Host.Outcome.next.inj h).symm⟩

/-- A read goes on to a next state whatever the register, when the rest of the instruction does. -/
theorem State.readReg_next {s : State} {i : Reg} {k : Word → Result} (hk : ∀ v, ∃ t, k v = .next t) :
    ∃ t, s.readReg i k = .next t := by
  cases hw : s.gpr[i].written with
  | true => rw [State.readReg_written hw]; exact hk _
  | false => rw [State.readReg_unwritten hw]; exact ⟨_, rfl⟩

/-! ### Slots of the register file -/

@[simp] theorem gpr_set_self (g : Vector Slot 8) (i : Reg) (x : Slot) : (g.set i x)[i] = x := by
  simp

theorem gpr_set_of_ne (g : Vector Slot 8) {i j : Reg} (x : Slot) (h : j ≠ i) : (g.set i x)[j] = g[j] := by
  have : i.val ≠ j.val := fun e => h (Fin.ext e.symm)
  simp [this]

/-- Writes to two different registers may be exchanged. -/
theorem gpr_set_comm (g : Vector Slot 8) {i j : Reg} (x y : Slot) (h : i ≠ j) :
    (g.set i x).set j y = (g.set j y).set i x := by
  have : i.val ≠ j.val := fun e => h (Fin.ext e)
  exact Vector.set_comm _ _ this

/-! ### Condition codes (R36) -/

theorem condOf_legal (p : Params) (v : Word) :
    condOf p v = p.condNeg ∨ condOf p v = p.condZro ∨ condOf p v = p.condPos := by
  unfold condOf
  split
  · exact .inl rfl
  · split
    · exact .inr (.inl rfl)
    · exact .inr (.inr rfl)

/-! ### The console (R47, R48) -/

/-- A poll keeps what was put and what was delivered, and whether the input ends. -/
theorem Console.drawPoll_frame (c : Console) :
    c.drawPoll.2.input = c.input ∧ c.drawPoll.2.inputEnded = c.inputEnded ∧ c.drawPoll.2.output = c.output ∧
      c.drawPoll.2.delivered = c.delivered := by
  unfold Console.drawPoll
  split <;> exact ⟨rfl, rfl, rfl, rfl⟩

/-- All that a poll can answer. -/
theorem Console.poll_cases (c : Console) :
    (∃ b rest, c.input = b :: rest ∧ c.drawPoll.1 = true ∧ c.poll = (some b, { c.drawPoll.2 with input := rest })) ∨
      ((c.drawPoll.1 = false ∨ c.input = []) ∧ c.poll = (none, c.drawPoll.2)) := by
  obtain ⟨hi, -, -, -⟩ := c.drawPoll_frame
  unfold Console.poll
  split
  next b rest h1 h2 => exact .inl ⟨b, rest, hi ▸ h2, h1, rfl⟩
  next hne =>
    refine .inr ⟨?_, rfl⟩
    cases hd : c.drawPoll.1 with
    | false => exact .inl rfl
    | true =>
      cases hx : c.input with
      | nil => exact .inr rfl
      | cons b rest => exact absurd (hi.trans hx) (hne b rest hd)

/-- A poll keeps what was put, and takes input from the front only. -/
theorem Console.poll_frame (c : Console) :
    c.poll.2.input <:+ c.input ∧ c.poll.2.inputEnded = c.inputEnded ∧ c.poll.2.output = c.output ∧
      c.poll.2.delivered = c.delivered := by
  obtain ⟨hi, he, ho, hd⟩ := c.drawPoll_frame
  rcases c.poll_cases with ⟨b, rest, hin, -, hp⟩ | ⟨-, hp⟩
  · rw [hp]
    exact ⟨hin ▸ List.suffix_cons b rest, he, ho, hd⟩
  · rw [hp]
    exact ⟨hi ▸ List.suffix_refl _, he, ho, hd⟩

/-- All that `ConsoleGetc` can find. -/
theorem Console.getc_cases (c : Console) :
    (∃ b rest, c.input = b :: rest ∧ c.getc = (.byte b, { c with input := rest })) ∨
      (c.input = [] ∧ c.inputEnded = true ∧ c.getc = (.eof, c)) ∨
      (c.input = [] ∧ c.inputEnded = false ∧ c.getc = (.waiting, c)) := by
  unfold Console.getc
  split
  next b rest h => exact .inl ⟨b, rest, h, rfl⟩
  next h =>
    cases he : c.inputEnded with
    | true => exact .inr (.inl ⟨h, rfl, rfl⟩)
    | false => exact .inr (.inr ⟨h, rfl, rfl⟩)

/-! ### The keyboard poll and memory reads (R62, R65) -/

/-- All that a keyboard poll can do to the state. -/
theorem State.kbdPoll_cases (s : State) :
    (∃ b rest, s.console.input = b :: rest ∧
        s.kbdPoll = ((s.withConsole { s.console.drawPoll.2 with input := rest }).memWrite s.params.kbsrAddr
          s.params.kbsrReady).memWrite s.params.kbdrAddr (zext8 b)) ∨
      s.kbdPoll = (s.withConsole s.console.drawPoll.2).memWrite s.params.kbsrAddr 0x0000#16 := by
  unfold State.kbdPoll
  rcases s.console.poll_cases with ⟨b, rest, hin, -, hp⟩ | ⟨-, hp⟩
  · exact .inl ⟨b, rest, hin, by rw [hp]⟩
  · exact .inr (by rw [hp])

section KbdPoll
variable (s : State)

@[simp] theorem State.kbdPoll_gpr : s.kbdPoll.gpr = s.gpr := by unfold State.kbdPoll; split <;> rfl
@[simp] theorem State.kbdPoll_pc : s.kbdPoll.pc = s.pc := by unfold State.kbdPoll; split <;> rfl
@[simp] theorem State.kbdPoll_cond : s.kbdPoll.cond = s.cond := by unfold State.kbdPoll; split <;> rfl
@[simp] theorem State.kbdPoll_engine : s.kbdPoll.engine = s.engine := by unfold State.kbdPoll; split <;> rfl
@[simp] theorem State.kbdPoll_phase : s.kbdPoll.phase = s.phase := by unfold State.kbdPoll; split <;> rfl
@[simp] theorem State.kbdPoll_abortSignal : s.kbdPoll.abortSignal = s.abortSignal := by
  unfold State.kbdPoll; split <;> rfl
@[simp] theorem State.kbdPoll_params : s.kbdPoll.params = s.params := by unfold State.kbdPoll; split <;> rfl
@[simp] theorem State.kbdPoll_console : s.kbdPoll.console = s.console.poll.2 := by
  unfold State.kbdPoll; split <;> next h => rw [h]; rfl

/-- A poll writes KBSR and KBDR and no other Word. -/
theorem State.kbdPoll_memPeek {a : Word} (h1 : a ≠ s.params.kbsrAddr) (h2 : a ≠ s.params.kbdrAddr) :
    s.kbdPoll.memPeek a = s.memPeek a := by
  have n1 : a.toNat ≠ s.params.kbsrAddr.toNat := fun e => h1 (BitVec.eq_of_toNat_eq e)
  have n2 : a.toNat ≠ s.params.kbdrAddr.toNat := fun e => h2 (BitVec.eq_of_toNat_eq e)
  rcases s.kbdPoll_cases with ⟨b, rest, -, h⟩ | h
  · simp [h, State.memPeek, Memory.read_write_of_ne _ _ n1, Memory.read_write_of_ne _ _ n2]
  · simp [h, State.memPeek, Memory.read_write_of_ne _ _ n1]

theorem State.kbdPoll_wf (h : s.mem.wf = true) : s.kbdPoll.mem.wf = true := by
  rcases s.kbdPoll_cases with ⟨b, rest, -, hp⟩ | hp <;> rw [hp]
  · simpa using Memory.wf_write_word (Memory.wf_write_word h s.params.kbsrAddr s.params.kbsrReady) s.params.kbdrAddr (zext8 b)
  · simpa using Memory.wf_write_word h s.params.kbsrAddr 0x0000#16

end KbdPoll

section Touch
variable (s : State) (a : Word)

theorem State.touch_of_ne {s : State} {a : Word} (h : a ≠ s.params.kbsrAddr) : s.touch a = s := if_neg h
theorem State.touch_kbsr {s : State} {a : Word} (h : a = s.params.kbsrAddr) : s.touch a = s.kbdPoll := if_pos h

@[simp] theorem State.touch_gpr : (s.touch a).gpr = s.gpr := by unfold State.touch; split <;> simp
@[simp] theorem State.touch_pc : (s.touch a).pc = s.pc := by unfold State.touch; split <;> simp
@[simp] theorem State.touch_cond : (s.touch a).cond = s.cond := by unfold State.touch; split <;> simp
@[simp] theorem State.touch_engine : (s.touch a).engine = s.engine := by unfold State.touch; split <;> simp
@[simp] theorem State.touch_phase : (s.touch a).phase = s.phase := by unfold State.touch; split <;> simp
@[simp] theorem State.touch_abortSignal : (s.touch a).abortSignal = s.abortSignal := by
  unfold State.touch; split <;> simp
@[simp] theorem State.touch_params : (s.touch a).params = s.params := by unfold State.touch; split <;> simp
@[simp] theorem State.touch_output : (s.touch a).console.output = s.console.output := by
  unfold State.touch; split
  · simp [s.console.poll_frame]
  · rfl
@[simp] theorem State.touch_delivered : (s.touch a).console.delivered = s.console.delivered := by
  unfold State.touch; split
  · simp [s.console.poll_frame]
  · rfl

theorem State.touch_input : (s.touch a).console.input <:+ s.console.input := by
  unfold State.touch; split
  · simpa using s.console.poll_frame.1
  · exact List.suffix_refl _

/-- A read changes no Word but, at `KBSR_ADDR`, KBSR and KBDR (R73). -/
theorem State.touch_memPeek {b : Word} (h1 : b ≠ s.params.kbsrAddr) (h2 : b ≠ s.params.kbdrAddr) :
    (s.touch a).memPeek b = s.memPeek b := by
  unfold State.touch; split
  · exact s.kbdPoll_memPeek h1 h2
  · rfl

theorem State.touch_wf (h : s.mem.wf = true) : (s.touch a).mem.wf = true := by
  unfold State.touch; split
  · exact s.kbdPoll_wf h
  · exact h

end Touch

theorem State.memRead_of_ne {s : State} {a : Word} (h : a ≠ s.params.kbsrAddr) : s.memRead a = (s.memPeek a, s) := by
  rw [State.memRead, State.touch_of_ne h]

/-- A string read is a peek or a touch (R210). -/
theorem State.strRead_snd (s : State) (p : Word) : (s.strRead p).2 = s ∨ (s.strRead p).2 = s.touch p := by
  unfold State.strRead; split
  · exact .inr rfl
  · exact .inl rfl

/-- Where the parameter lets no string read poll, or away from `KBSR_ADDR`, a string read is a peek (R210). -/
theorem State.strRead_peek {s : State} {p : Word} (h : s.params.stringReadPolls = false ∨ p ≠ s.params.kbsrAddr) :
    s.strRead p = (s.memPeek p, s) := by
  unfold State.strRead
  split
  next hp =>
    rcases h with h | h
    · simp [h] at hp
    · exact State.memRead_of_ne h
  · rfl

/-! ### What no console or memory activity changes -/

/-- `t` has the registers, the PC, COND, the engine state, the abort signal and the parameters of `s`. -/
structure SameCore (s t : State) : Prop where
  gpr : t.gpr = s.gpr
  pc : t.pc = s.pc
  cond : t.cond = s.cond
  engine : t.engine = s.engine
  abortSignal : t.abortSignal = s.abortSignal
  params : t.params = s.params

theorem SameCore.refl (s : State) : SameCore s s := ⟨rfl, rfl, rfl, rfl, rfl, rfl⟩

theorem SameCore.trans {s t u : State} (h : SameCore s t) (k : SameCore t u) : SameCore s u :=
  ⟨k.gpr.trans h.gpr, k.pc.trans h.pc, k.cond.trans h.cond, k.engine.trans h.engine,
    k.abortSignal.trans h.abortSignal, k.params.trans h.params⟩

theorem SameCore.touch (s : State) (a : Word) : SameCore s (s.touch a) := by
  constructor <;> simp

theorem SameCore.put (s : State) (bs : List Byte) : SameCore s (s.put bs) := by constructor <;> simp

theorem SameCore.flush (s : State) : SameCore s s.flush := by constructor <;> simp

theorem SameCore.setPhase (s : State) (p : Phase) : SameCore s (s.setPhase p) := by constructor <;> simp

theorem SameCore.withConsole (s : State) (c : Console) : SameCore s (s.withConsole c) := by constructor <;> simp

theorem SameCore.strRead (s : State) (p : Word) : SameCore s (s.strRead p).2 := by
  rcases s.strRead_snd p with h | h <;> rw [h]
  · exact SameCore.refl s
  · exact SameCore.touch s p

end Sys2Proof.Machine
end

