-- ==== Sys2Proof/Laws/Trap.lean ====
section
/-! SUPPORT. The specification lemmas of the trap routines: the console input of GETC and IN, and the string scans of PUTS
and PUTSP, their induction packaged once. -/

namespace Sys2Proof.Machine

/-! ### GETC and IN -/

/-- All that the console read of GETC and IN can do (R202, R205, R209, R211). -/
theorem State.takeInput_cases (s : State) (echo : Bool) (wait : Phase) :
    (∃ b rest, s.console.input = b :: rest ∧
        s.takeInput echo wait =
          (if echo then (((s.withConsole { s.console with input := rest }).setPhase .idle).put [b]).flush
           else (s.withConsole { s.console with input := rest }).setPhase .idle).writeReg 0 (zext8 b)) ∨
      (s.console.input = [] ∧ s.console.inputEnded = true ∧
        s.takeInput echo wait = (s.setPhase .idle).writeReg 0 s.params.eofSentinel) ∨
      (s.console.input = [] ∧ s.console.inputEnded = false ∧ s.takeInput echo wait = s.setPhase wait) := by
  unfold State.takeInput
  rcases s.console.getc_cases with ⟨b, rest, h, hg⟩ | ⟨h, he, hg⟩ | ⟨h, he, hg⟩
  · exact .inl ⟨b, rest, h, by rw [hg]⟩
  · exact .inr (.inl ⟨h, he, by rw [hg]; rfl⟩)
  · exact .inr (.inr ⟨h, he, by rw [hg]⟩)

/-- What the console read of GETC and IN leaves: everything but R0, the console and the phase. -/
theorem State.takeInput_frame (s : State) (echo : Bool) (wait : Phase) :
    (s.takeInput echo wait).pc = s.pc ∧ (s.takeInput echo wait).cond = s.cond ∧
      (s.takeInput echo wait).mem = s.mem ∧ (s.takeInput echo wait).engine = s.engine ∧
      (s.takeInput echo wait).abortSignal = s.abortSignal ∧ (s.takeInput echo wait).params = s.params ∧
      (∀ r : Reg, r ≠ 0 → (s.takeInput echo wait).gpr[r] = s.gpr[r]) := by
  rcases s.takeInput_cases echo wait with ⟨b, rest, -, h⟩ | ⟨-, -, h⟩ | ⟨-, -, h⟩ <;> rw [h]
  · cases echo <;> exact ⟨rfl, rfl, rfl, rfl, rfl, rfl, fun r hr => gpr_set_of_ne _ _ hr⟩
  · exact ⟨rfl, rfl, rfl, rfl, rfl, rfl, fun r hr => gpr_set_of_ne _ _ hr⟩
  · exact ⟨rfl, rfl, rfl, rfl, rfl, rfl, fun r _ => rfl⟩

/-! ### String scans -/

/-- The state a scan has reached. -/
def Scan.state : Scan → State
  | .ended s => s
  | .going _ s => s

/-- A relation that string reads and console output keep holds across a PUTS scan. -/
theorem putsScan_keeps {P : State → State → Prop} (refl : ∀ s, P s s) (trans : ∀ {s t u}, P s t → P t u → P s u)
    (read : ∀ s p, P s (s.strRead p).2) (put : ∀ s bs, P s (s.put bs)) :
    ∀ n p s, P s (putsScan n p s).state
  | 0, _, s => refl s
  | n + 1, p, s => by
    rw [putsScan]
    split
    · exact read s p
    · exact trans (trans (read s p) (put _ _)) (putsScan_keeps refl trans read put n _ _)

/-- A relation that string reads and console output keep holds across a PUTSP scan. -/
theorem putspScan_keeps {P : State → State → Prop} (refl : ∀ s, P s s) (trans : ∀ {s t u}, P s t → P t u → P s u)
    (read : ∀ s p, P s (s.strRead p).2) (put : ∀ s bs, P s (s.put bs)) :
    ∀ n p s, P s (putspScan n p s).state
  | 0, _, s => refl s
  | n + 1, p, s => by
    rw [putspScan]
    split
    · exact read s p
    · split
      · exact trans (read s p) (put _ _)
      · exact trans (trans (read s p) (put _ _)) (putspScan_keeps refl trans read put n _ _)

/-- What a scan leaves: the registers, the PC, COND, the engine, the signal, the parameters and the phase; memory in its
form, and every Word but KBSR and KBDR; the delivered count; the streams in order. -/
structure ScanFrame (s t : State) : Prop where
  core : SameCore s t
  phase : t.phase = s.phase
  wf : s.mem.wf = true → t.mem.wf = true
  memPeek : ∀ a, a ≠ s.params.kbsrAddr → a ≠ s.params.kbdrAddr → t.memPeek a = s.memPeek a
  mem : s.params.stringReadPolls = false → t.mem = s.mem
  delivered : t.console.delivered = s.console.delivered
  output : s.console.output <+: t.console.output
  input : t.console.input <:+ s.console.input

theorem ScanFrame.refl (s : State) : ScanFrame s s :=
  ⟨SameCore.refl s, rfl, id, fun _ _ _ => rfl, fun _ => rfl, rfl, List.prefix_refl _, List.suffix_refl _⟩

theorem ScanFrame.trans {s t u : State} (h : ScanFrame s t) (k : ScanFrame t u) : ScanFrame s u where
  core := h.core.trans k.core
  phase := k.phase.trans h.phase
  wf hs := k.wf (h.wf hs)
  memPeek a h1 h2 := (k.memPeek a (h.core.params ▸ h1) (h.core.params ▸ h2)).trans (h.memPeek a h1 h2)
  mem hp := (k.mem (h.core.params ▸ hp)).trans (h.mem hp)
  delivered := k.delivered.trans h.delivered
  output := h.output.trans k.output
  input := k.input.trans h.input

theorem ScanFrame.read (s : State) (p : Word) : ScanFrame s (s.strRead p).2 := by
  rcases s.strRead_snd p with h | h
  · rw [h]; exact ScanFrame.refl s
  · exact
      { core := SameCore.strRead s p
        phase := by rw [h]; simp
        wf := fun hs => by rw [h]; exact s.touch_wf p hs
        memPeek := fun a h1 h2 => by rw [h]; exact s.touch_memPeek p h1 h2
        mem := fun hp => by rw [State.strRead_peek (.inl hp)]
        delivered := by rw [h]; simp
        output := by rw [h]; simp
        input := by rw [h]; exact s.touch_input p }

theorem ScanFrame.put (s : State) (bs : List Byte) : ScanFrame s (s.put bs) :=
  ⟨SameCore.put s bs, rfl, id, fun _ _ _ => rfl, fun _ => rfl, rfl, List.prefix_append _ _, List.suffix_refl _⟩

theorem putsScan_frame (n : Nat) (p : Word) (s : State) : ScanFrame s (putsScan n p s).state :=
  putsScan_keeps ScanFrame.refl ScanFrame.trans ScanFrame.read ScanFrame.put n p s

theorem putspScan_frame (n : Nat) (p : Word) (s : State) : ScanFrame s (putspScan n p s).state :=
  putspScan_keeps ScanFrame.refl ScanFrame.trans ScanFrame.read ScanFrame.put n p s

/-- The two ways a PUTS goes on after at most one lap (R204, R213). -/
theorem State.putsFrom_cases (s : State) (p : Word) :
    (∃ t, putsScan scanLap p s = .ended t ∧ ScanFrame s t ∧ s.putsFrom p = (t.setPhase .idle).flush) ∨
      (∃ q t, putsScan scanLap p s = .going q t ∧ ScanFrame s t ∧ s.putsFrom p = t.setPhase (.puts q)) := by
  have hf := putsScan_frame scanLap p s
  rw [State.putsFrom]
  cases h : putsScan scanLap p s with
  | ended t => rw [h] at hf; exact .inl ⟨t, rfl, hf, rfl⟩
  | going q t => rw [h] at hf; exact .inr ⟨q, t, rfl, hf, rfl⟩

/-- The two ways a PUTSP goes on after at most one lap (R206, R213). -/
theorem State.putspFrom_cases (s : State) (p : Word) :
    (∃ t, putspScan scanLap p s = .ended t ∧ ScanFrame s t ∧ s.putspFrom p = (t.setPhase .idle).flush) ∨
      (∃ q t, putspScan scanLap p s = .going q t ∧ ScanFrame s t ∧ s.putspFrom p = t.setPhase (.putsp q)) := by
  have hf := putspScan_frame scanLap p s
  rw [State.putspFrom]
  cases h : putspScan scanLap p s with
  | ended t => rw [h] at hf; exact .inl ⟨t, rfl, hf, rfl⟩
  | going q t => rw [h] at hf; exact .inr ⟨q, t, rfl, hf, rfl⟩

/-- One read of a PUTS scan, where string reads do not poll. -/
theorem putsScan_succ_peek {n : Nat} {p : Word} {s : State}
    (h : s.params.stringReadPolls = false ∨ p ≠ s.params.kbsrAddr) :
    putsScan (n + 1) p s =
      if s.memPeek p = 0x0000#16 then .ended s else putsScan n (p + 1#16) (s.put [lowByte (s.memPeek p)]) := by
  rw [putsScan, State.strRead_peek h]

/-- One read of a PUTSP scan, where string reads do not poll. -/
theorem putspScan_succ_peek {n : Nat} {p : Word} {s : State}
    (h : s.params.stringReadPolls = false ∨ p ≠ s.params.kbsrAddr) :
    putspScan (n + 1) p s =
      if lowByte (s.memPeek p) = 0x00#8 then .ended s
      else if highByte (s.memPeek p) = 0x00#8 then .ended (s.put [lowByte (s.memPeek p)])
      else putspScan n (p + 1#16) (s.put [lowByte (s.memPeek p), highByte (s.memPeek p)]) := by
  rw [putspScan, State.strRead_peek h]

end Sys2Proof.Machine
end

