-- ==== Sys2Proof/Laws/Exec.lean ====
section
/-! SUPPORT. One inversion lemma per meaning: all that an instruction can do when it answers a next state. The proofs
about `exec` cite these and unfold no meaning. -/

namespace Sys2Proof.Machine

/-- The state that a read of the unwritten register `r` leaves (R33, R252). -/
def State.unwrittenFault (s : State) (r : Reg) : State := s.enter (.faulted (.unwrittenRegister r) s.instrAddr)

variable {s t : State}

theorem State.readReg_inv {i : Reg} {k : Word → Result} (h : s.readReg i k = .next t) :
    (s.gpr[i].written = true ∧ k s.gpr[i].value = .next t) ∨ (s.gpr[i].written = false ∧ t = s.unwrittenFault i) :=
  State.readReg_cases h

/-- Reading a register other than R7 after the link sees the old register. -/
theorem State.link_gpr_of_ne {r : Reg} (h : r ≠ 7) : s.link.gpr[r] = s.gpr[r] := gpr_set_of_ne _ _ h

@[simp] theorem State.link_gpr_seven : s.link.gpr[(7 : Reg)] = ⟨s.pc, true⟩ := gpr_set_self _ _ _

@[simp] theorem State.link_instrAddr : s.link.instrAddr = s.instrAddr := rfl

/-! ### Operate -/

theorem execAddReg_inv {dr sr1 sr2 : Reg} (h : execAddReg dr sr1 sr2 s = .next t) :
    (∃ v, t = s.writeResult dr v) ∨
      (∃ r, r ∈ [sr1, sr2] ∧ s.gpr[r].written = false ∧ t = s.unwrittenFault r) := by
  rcases State.readReg_inv h with ⟨-, h⟩ | ⟨h1, h⟩
  · rcases State.readReg_inv h with ⟨-, h⟩ | ⟨h2, h⟩
    · exact .inl ⟨_, (Host.Outcome.next.inj h).symm⟩
    · exact .inr ⟨sr2, by simp, h2, h⟩
  · exact .inr ⟨sr1, by simp, h1, h⟩

theorem execAndReg_inv {dr sr1 sr2 : Reg} (h : execAndReg dr sr1 sr2 s = .next t) :
    (∃ v, t = s.writeResult dr v) ∨
      (∃ r, r ∈ [sr1, sr2] ∧ s.gpr[r].written = false ∧ t = s.unwrittenFault r) := by
  rcases State.readReg_inv h with ⟨-, h⟩ | ⟨h1, h⟩
  · rcases State.readReg_inv h with ⟨-, h⟩ | ⟨h2, h⟩
    · exact .inl ⟨_, (Host.Outcome.next.inj h).symm⟩
    · exact .inr ⟨sr2, by simp, h2, h⟩
  · exact .inr ⟨sr1, by simp, h1, h⟩

theorem execAddImm_inv {dr sr1 : Reg} {imm5 : BitVec 5} (h : execAddImm dr sr1 imm5 s = .next t) :
    (∃ v, t = s.writeResult dr v) ∨ (s.gpr[sr1].written = false ∧ t = s.unwrittenFault sr1) :=
  (State.readReg_inv h).imp (fun h => ⟨_, (Host.Outcome.next.inj h.2).symm⟩) id

theorem execAndImm_inv {dr sr1 : Reg} {imm5 : BitVec 5} (h : execAndImm dr sr1 imm5 s = .next t) :
    (∃ v, t = s.writeResult dr v) ∨ (s.gpr[sr1].written = false ∧ t = s.unwrittenFault sr1) :=
  (State.readReg_inv h).imp (fun h => ⟨_, (Host.Outcome.next.inj h.2).symm⟩) id

theorem execNot_inv {dr sr1 : Reg} (h : execNot dr sr1 s = .next t) :
    (∃ v, t = s.writeResult dr v) ∨ (s.gpr[sr1].written = false ∧ t = s.unwrittenFault sr1) :=
  (State.readReg_inv h).imp (fun h => ⟨_, (Host.Outcome.next.inj h.2).symm⟩) id

/-! ### Control transfer -/

theorem execBr_inv {n z p : Bool} {off9 : BitVec 9} (h : execBr n z p off9 s = .next t) :
    t = s.setPc (if branchTaken n z p s.cond.value then pcRel9 s.pc off9 else s.pc) ∨
      ((n || z || p) = true ∧ s.cond.written = false ∧ t = s.enter (.faulted .unsetCond s.instrAddr)) := by
  unfold execBr at h
  split at h
  next hm =>
    split at h
    next hc =>
      refine .inl ((Host.Outcome.next.inj h).symm.trans ?_)
      split <;> rfl
    next hc => exact .inr ⟨hm, by simpa using hc, (Host.Outcome.next.inj h).symm⟩
  next hm =>
    have hn : n = false := by simp at hm; exact hm.1.1
    have hz : z = false := by simp at hm; exact hm.1.2
    have hp : p = false := by simp at hm; exact hm.2
    subst hn hz hp
    refine .inl ((Host.Outcome.next.inj h).symm.trans ?_)
    simp [branchTaken, nzpMask, State.setPc]

theorem execJmp_inv {base : Reg} (h : execJmp base s = .next t) :
    t = s.setPc s.gpr[base].value ∨ (s.gpr[base].written = false ∧ t = s.unwrittenFault base) :=
  (State.readReg_inv h).imp (fun h => (Host.Outcome.next.inj h.2).symm) id

theorem execRet_inv (h : execRet s = .next t) :
    t = s.setPc s.gpr[(7 : Reg)].value ∨ (s.gpr[(7 : Reg)].written = false ∧ t = s.unwrittenFault 7) :=
  (State.readReg_inv h).imp (fun h => (Host.Outcome.next.inj h.2).symm) id

theorem execJsr_inv {off11 : BitVec 11} (h : execJsr off11 s = .next t) : t = s.link.setPc (pcRel11 s.pc off11) :=
  (Host.Outcome.next.inj h).symm

theorem execJsrr_inv {base : Reg} (h : execJsrr base s = .next t) :
    t = s.link.setPc s.link.gpr[base].value ∨
      (base ≠ 7 ∧ s.gpr[base].written = false ∧ t = s.link.unwrittenFault base) := by
  change s.link.readReg base (fun target => .next (s.link.setPc target)) = .next t at h
  rcases State.readReg_inv h with ⟨-, h⟩ | ⟨hw, h⟩
  · exact .inl (Host.Outcome.next.inj h).symm
  · have hb : base ≠ 7 := fun e => by rw [e, State.link_gpr_seven] at hw; cases hw
    exact .inr ⟨hb, by rwa [State.link_gpr_of_ne hb] at hw, h⟩

/-! ### Loads and stores -/

theorem execLd_inv {dr : Reg} {off9 : BitVec 9} (h : execLd dr off9 s = .next t) :
    t = s.loadInto dr (pcRel9 s.pc off9) := (Host.Outcome.next.inj h).symm

theorem execLdi_inv {dr : Reg} {off9 : BitVec 9} (h : execLdi dr off9 s = .next t) :
    t = (s.touch (pcRel9 s.pc off9)).loadInto dr ((s.touch (pcRel9 s.pc off9)).memPeek (pcRel9 s.pc off9)) :=
  (Host.Outcome.next.inj h).symm

theorem execLdr_inv {dr base : Reg} {off6 : BitVec 6} (h : execLdr dr base off6 s = .next t) :
    t = s.loadInto dr (baseOff6 s.gpr[base].value off6) ∨
      (s.gpr[base].written = false ∧ t = s.unwrittenFault base) :=
  (State.readReg_inv h).imp (fun h => (Host.Outcome.next.inj h.2).symm) id

theorem State.loadInto_eq (dr : Reg) (a : Word) :
    s.loadInto dr a = (s.touch a).writeResult dr ((s.touch a).memPeek a) := rfl

theorem execLea_inv {dr : Reg} {off9 : BitVec 9} (h : execLea dr off9 s = .next t) :
    t = s.writeResult dr (pcRel9 s.pc off9) := (Host.Outcome.next.inj h).symm

theorem execSt_inv {sr : Reg} {off9 : BitVec 9} (h : execSt sr off9 s = .next t) :
    t = s.memWrite (pcRel9 s.pc off9) s.gpr[sr].value ∨ (s.gpr[sr].written = false ∧ t = s.unwrittenFault sr) :=
  (State.readReg_inv h).imp (fun h => (Host.Outcome.next.inj h.2).symm) id

theorem execSti_inv {sr : Reg} {off9 : BitVec 9} (h : execSti sr off9 s = .next t) :
    t = (s.touch (pcRel9 s.pc off9)).memWrite ((s.touch (pcRel9 s.pc off9)).memPeek (pcRel9 s.pc off9))
        s.gpr[sr].value ∨
      (s.gpr[sr].written = false ∧ t = s.unwrittenFault sr) :=
  (State.readReg_inv h).imp (fun h => (Host.Outcome.next.inj h.2).symm) id

theorem execStr_inv {sr base : Reg} {off6 : BitVec 6} (h : execStr sr base off6 s = .next t) :
    t = s.memWrite (baseOff6 s.gpr[base].value off6) s.gpr[sr].value ∨
      (∃ r, r ∈ [sr, base] ∧ s.gpr[r].written = false ∧ t = s.unwrittenFault r) := by
  rcases State.readReg_inv h with ⟨-, h⟩ | ⟨h1, h⟩
  · rcases State.readReg_inv h with ⟨-, h⟩ | ⟨h2, h⟩
    · exact .inl (Host.Outcome.next.inj h).symm
    · exact .inr ⟨base, by simp, h2, h⟩
  · exact .inr ⟨sr, by simp, h1, h⟩

/-! ### Traps -/

/-- A vector outside 0x20-0x25 is dispatched to the unhandled routine (R201, R208). -/
theorem execTrap_inv {vect : BitVec 8} (hv : definedVector vect = false) (h : execTrap vect s = .next t) :
    t = s.link.enter (.halted (.unhandledTrap s.instrAddr vect)) := by
  simp only [definedVector, Bool.or_eq_false_iff, beq_eq_false_iff_ne] at hv
  obtain ⟨⟨⟨⟨⟨h0, h1⟩, h2⟩, h3⟩, h4⟩, h5⟩ := hv
  rw [execTrap, State.trapDispatch, if_neg h0, if_neg h1, if_neg h2, if_neg h3, if_neg h4, if_neg h5] at h
  exact (Host.Outcome.next.inj h).symm

theorem execGetc_inv (h : execGetc s = .next t) : t = s.link.takeInput false .getc := (Host.Outcome.next.inj h).symm

theorem execInp_inv (h : execInp s = .next t) :
    t = ((s.link.put s.params.inPrompt).flush).takeInput true .inp := (Host.Outcome.next.inj h).symm

theorem execOut_inv (h : execOut s = .next t) :
    t = (s.link.put [lowByte s.gpr[(0 : Reg)].value]).flush ∨
      (s.gpr[(0 : Reg)].written = false ∧ t = s.link.unwrittenFault 0) := by
  have h0 : s.link.gpr[(0 : Reg)] = s.gpr[(0 : Reg)] := State.link_gpr_of_ne (by decide)
  rw [execOut, State.outRoutine] at h
  rw [← h0]
  exact (State.readReg_inv h).imp (fun h => (Host.Outcome.next.inj h.2).symm) id

theorem execPuts_inv (h : execPuts s = .next t) :
    t = s.link.putsFrom s.gpr[(0 : Reg)].value ∨
      (s.gpr[(0 : Reg)].written = false ∧ t = s.link.unwrittenFault 0) := by
  have h0 : s.link.gpr[(0 : Reg)] = s.gpr[(0 : Reg)] := State.link_gpr_of_ne (by decide)
  rw [execPuts, State.putsRoutine] at h
  rw [← h0]
  exact (State.readReg_inv h).imp (fun h => (Host.Outcome.next.inj h.2).symm) id

theorem execPutsp_inv (h : execPutsp s = .next t) :
    t = s.link.putspFrom s.gpr[(0 : Reg)].value ∨
      (s.gpr[(0 : Reg)].written = false ∧ t = s.link.unwrittenFault 0) := by
  have h0 : s.link.gpr[(0 : Reg)] = s.gpr[(0 : Reg)] := State.link_gpr_of_ne (by decide)
  rw [execPutsp, State.putspRoutine] at h
  rw [← h0]
  exact (State.readReg_inv h).imp (fun h => (Host.Outcome.next.inj h.2).symm) id

theorem execHalt_inv (h : execHalt s = .next t) :
    t = ((s.link.put s.params.haltNotice).flush).enter (.halted .haltTrap) := (Host.Outcome.next.inj h).symm

/-! ### Reserved opcodes -/

theorem execRti_inv (h : execRti s = .next t) : t = s.enter (.halted (.invalidOpcode s.instrAddr (s.params.opcodeMap.value .rti))) :=
  (Host.Outcome.next.inj h).symm

theorem execRes_inv (h : execRes s = .next t) : t = s.enter (.halted (.invalidOpcode s.instrAddr (s.params.opcodeMap.value .res))) :=
  (Host.Outcome.next.inj h).symm

end Sys2Proof.Machine
end

