-- ==== Sys2Proof/Laws/PerInstr.lean ====
section
/-! SUPPORT. The per-instruction family EncodesOpcode: the top four bits of an instruction's Word are its opcode's value
in the opcode map, whatever legal map that is (spec/00_scope.md R6, spec/30_encoding.md R92). -/

namespace Sys2Proof.Laws.EncodesOpcode

/-- The opcode of R92 that an instruction belongs to. -/
def opcode : Instr → Opcode
  | .addReg _ _ _ _ | .addImm _ _ _ => .add
  | .andReg _ _ _ _ | .andImm _ _ _ => .and
  | .not _ _ _ => .not
  | .br _ _ _ _ => .br
  | .jmp _ _ _ | .ret => .jmp
  | .jsr _ | .jsrr _ _ _ => .jsr
  | .ld _ _ => .ld
  | .ldi _ _ => .ldi
  | .ldr _ _ _ => .ldr
  | .lea _ _ => .lea
  | .st _ _ => .st
  | .sti _ _ => .sti
  | .str _ _ _ => .str
  | .trap _ _ | .getc _ | .out _ | .puts _ | .inp _ | .putsp _ | .halt _ => .trap
  | .rti _ => .rti
  | .res _ => .res

/-- A legal map read at the instruction's top four bits gives its opcode. -/
def Statement (i : Instr) : Prop := ∀ m : OpcodeMap, m.Legal → opcodeOf m (encode m i) = opcode i

theorem addReg (dr sr1 sr2 : Reg) (u : BitVec 2) : Statement (Instr.addReg dr sr1 sr2 u) :=
  fun _ hm => opcodeOf_of_value hm (by simp [encode, BitVec.extractLsb'_or]; rfl)

theorem addImm (dr sr1 : Reg) (imm5 : BitVec 5) : Statement (Instr.addImm dr sr1 imm5) :=
  fun _ hm => opcodeOf_of_value hm (by simp [encode, BitVec.extractLsb'_or]; rfl)

theorem andReg (dr sr1 sr2 : Reg) (u : BitVec 2) : Statement (Instr.andReg dr sr1 sr2 u) :=
  fun _ hm => opcodeOf_of_value hm (by simp [encode, BitVec.extractLsb'_or]; rfl)

theorem andImm (dr sr1 : Reg) (imm5 : BitVec 5) : Statement (Instr.andImm dr sr1 imm5) :=
  fun _ hm => opcodeOf_of_value hm (by simp [encode, BitVec.extractLsb'_or]; rfl)

theorem not (dr sr1 : Reg) (u : BitVec 6) : Statement (Instr.not dr sr1 u) :=
  fun _ hm => opcodeOf_of_value hm (by simp [encode, BitVec.extractLsb'_or]; rfl)

theorem br (n z p : Bool) (off9 : BitVec 9) : Statement (Instr.br n z p off9) :=
  fun _ hm => opcodeOf_of_value hm (by simp [encode, BitVec.extractLsb'_or]; rfl)

theorem jmp (hi : BitVec 3) (base : Reg) (lo : BitVec 6) : Statement (Instr.jmp hi base lo) :=
  fun _ hm => opcodeOf_of_value hm (by simp [encode, BitVec.extractLsb'_or]; rfl)

theorem ret : Statement Instr.ret :=
  fun _ hm => opcodeOf_of_value hm (by simp [encode, BitVec.extractLsb'_or]; rfl)

theorem jsr (off11 : BitVec 11) : Statement (Instr.jsr off11) :=
  fun _ hm => opcodeOf_of_value hm (by simp [encode, BitVec.extractLsb'_or]; rfl)

theorem jsrr (hi : BitVec 2) (base : Reg) (lo : BitVec 6) : Statement (Instr.jsrr hi base lo) :=
  fun _ hm => opcodeOf_of_value hm (by simp [encode, BitVec.extractLsb'_or]; rfl)

theorem ld (dr : Reg) (off9 : BitVec 9) : Statement (Instr.ld dr off9) :=
  fun _ hm => opcodeOf_of_value hm (by simp [encode, BitVec.extractLsb'_or]; rfl)

theorem ldi (dr : Reg) (off9 : BitVec 9) : Statement (Instr.ldi dr off9) :=
  fun _ hm => opcodeOf_of_value hm (by simp [encode, BitVec.extractLsb'_or]; rfl)

theorem ldr (dr base : Reg) (off6 : BitVec 6) : Statement (Instr.ldr dr base off6) :=
  fun _ hm => opcodeOf_of_value hm (by simp [encode, BitVec.extractLsb'_or]; rfl)

theorem lea (dr : Reg) (off9 : BitVec 9) : Statement (Instr.lea dr off9) :=
  fun _ hm => opcodeOf_of_value hm (by simp [encode, BitVec.extractLsb'_or]; rfl)

theorem st (sr : Reg) (off9 : BitVec 9) : Statement (Instr.st sr off9) :=
  fun _ hm => opcodeOf_of_value hm (by simp [encode, BitVec.extractLsb'_or]; rfl)

theorem sti (sr : Reg) (off9 : BitVec 9) : Statement (Instr.sti sr off9) :=
  fun _ hm => opcodeOf_of_value hm (by simp [encode, BitVec.extractLsb'_or]; rfl)

theorem str (sr base : Reg) (off6 : BitVec 6) : Statement (Instr.str sr base off6) :=
  fun _ hm => opcodeOf_of_value hm (by simp [encode, BitVec.extractLsb'_or]; rfl)

theorem trap (u : BitVec 4) (vect : BitVec 8) : Statement (Instr.trap u vect) :=
  fun _ hm => opcodeOf_of_value hm (by simp [encode, BitVec.extractLsb'_or]; rfl)

theorem getc (u : BitVec 4) : Statement (Instr.getc u) :=
  fun _ hm => opcodeOf_of_value hm (by simp [encode, BitVec.extractLsb'_or]; rfl)

theorem out (u : BitVec 4) : Statement (Instr.out u) :=
  fun _ hm => opcodeOf_of_value hm (by simp [encode, BitVec.extractLsb'_or]; rfl)

theorem puts (u : BitVec 4) : Statement (Instr.puts u) :=
  fun _ hm => opcodeOf_of_value hm (by simp [encode, BitVec.extractLsb'_or]; rfl)

theorem inp (u : BitVec 4) : Statement (Instr.inp u) :=
  fun _ hm => opcodeOf_of_value hm (by simp [encode, BitVec.extractLsb'_or]; rfl)

theorem putsp (u : BitVec 4) : Statement (Instr.putsp u) :=
  fun _ hm => opcodeOf_of_value hm (by simp [encode, BitVec.extractLsb'_or]; rfl)

theorem halt (u : BitVec 4) : Statement (Instr.halt u) :=
  fun _ hm => opcodeOf_of_value hm (by simp [encode, BitVec.extractLsb'_or]; rfl)

theorem rti (u : BitVec 12) : Statement (Instr.rti u) :=
  fun _ hm => opcodeOf_of_value hm (by simp [encode, BitVec.extractLsb'_or]; rfl)

theorem res (u : BitVec 12) : Statement (Instr.res u) :=
  fun _ hm => opcodeOf_of_value hm (by simp [encode, BitVec.extractLsb'_or]; rfl)

end Sys2Proof.Laws.EncodesOpcode
end

