-- ==== Sys2Proof/Laws/Step.lean ====
section
/-! SUPPORT. One inversion lemma for `step`, and the unfolding of a run of the machine by one step. -/

namespace Sys2Proof.Machine

/-! ### Runs -/

theorem run_zero (s : State) : Host.Core.run Sys2Proof.core 0 s = Host.Outcome.next s := rfl

theorem core_run_of_next (M : Host.Core) {s t : M.State} (h : M.step s = .next t) (k : Nat) :
    M.run (k + 1) s = M.run k t := by
  rw [Host.Core.run, h]

/-- A run goes on from the state its first step answers. -/
theorem run_succ_of_next {s t : State} (h : step s = .next t) (k : Nat) :
    Host.Core.run Sys2Proof.core (k + 1) s = Host.Core.run Sys2Proof.core k t :=
  core_run_of_next Sys2Proof.core h k

theorem core_run_inv (M : Host.Core) {s t : M.State} {k : Nat} (h : M.run (k + 1) s = .next t) :
    ∃ u, M.step s = .next u ∧ M.run k u = .next t := by
  cases hs : M.step s with
  | next u => exact ⟨u, rfl, (core_run_of_next M hs k).symm.trans h⟩
  | fault r => rw [Host.Core.run, hs] at h; cases h
  | refused r => rw [Host.Core.run, hs] at h; cases h

/-- A run of one step more that answers a state took a first step. -/
theorem run_succ_inv {s t : State} {k : Nat} (h : Host.Core.run Sys2Proof.core (k + 1) s = Host.Outcome.next t) :
    ∃ u, step s = .next u ∧ Host.Core.run Sys2Proof.core k u = Host.Outcome.next t :=
  core_run_inv Sys2Proof.core h

/-! ### One step -/

variable {s t : State}

/-- All that a step can do: an abort (R50), the reserved-bits stop (R97), an instruction on the fetched state (R97), the
end of a console wait (R209), a string scan gone on with (R213). -/
theorem step_cases (h : step s = .next t) :
    s.engine = .running ∧
      ((s.abortSignal = true ∧ s.phase.scanning = false ∧ t = (s.setPhase .idle).enter (.halted .aborted)) ∨
       (s.abortSignal = false ∧ s.phase = .idle ∧ s.fetch.2.reservedBitsStop (decode s.params.opcodeMap s.fetch.1) = true ∧
          t = s.fetch.2.enter (.faulted .reservedBits s.pc)) ∨
       (s.abortSignal = false ∧ s.phase = .idle ∧ s.fetch.2.reservedBitsStop (decode s.params.opcodeMap s.fetch.1) = false ∧
          exec (decode s.params.opcodeMap s.fetch.1) s.fetch.2 = .next t) ∨
       (s.abortSignal = false ∧ s.phase = .getc ∧ t = s.takeInput false .getc) ∨
       (s.abortSignal = false ∧ s.phase = .inp ∧ t = s.takeInput true .inp) ∨
       (∃ p, s.phase = .puts p ∧ t = s.putsFrom p) ∨
       (∃ p, s.phase = .putsp p ∧ t = s.putspFrom p)) := by
  unfold step at h
  split at h
  · cases h
  · cases h
  next he =>
    refine ⟨he, ?_⟩
    split at h
    next hp =>
      split at h
      next ha =>
        refine .inl ⟨ha, by rw [hp]; rfl, (Host.Outcome.next.inj h).symm.trans ?_⟩
        rw [State.setPhase, ← hp]
      next ha =>
        have ha' : s.abortSignal = false := by simpa using ha
        unfold runCycle at h
        split at h
        next hr =>
          refine .inr (.inl ⟨ha', hp, hr, (Host.Outcome.next.inj h).symm.trans ?_⟩)
          simp [State.instrAddr]
        next hr => exact .inr (.inr (.inl ⟨ha', hp, by simpa using hr, h⟩))
    next hp =>
      split at h
      next ha => exact .inl ⟨ha, by rw [hp]; rfl, (Host.Outcome.next.inj h).symm⟩
      next ha => exact .inr (.inr (.inr (.inl ⟨by simpa using ha, hp, (Host.Outcome.next.inj h).symm⟩)))
    next hp =>
      split at h
      next ha => exact .inl ⟨ha, by rw [hp]; rfl, (Host.Outcome.next.inj h).symm⟩
      next ha => exact .inr (.inr (.inr (.inr (.inl ⟨by simpa using ha, hp, (Host.Outcome.next.inj h).symm⟩))))
    next p hp => exact .inr (.inr (.inr (.inr (.inr (.inl ⟨p, hp, (Host.Outcome.next.inj h).symm⟩)))))
    next p hp => exact .inr (.inr (.inr (.inr (.inr (.inr ⟨p, hp, (Host.Outcome.next.inj h).symm⟩)))))

end Sys2Proof.Machine
end

