-- ==== Sys2Proof/Tests/Slice0.lean ====
section
/-! SUPPORT. The model's own tests: ill-formed terms, decoding, one step of the vectors of spec/95_test_vectors.md (named
V<n>, S<n>, F<n> as there), and for every statement with hypotheses a concrete state and operands that meet them. -/

namespace Sys2Proof.Tests.Slice0

open Sys2Proof Sys2Proof.Machine

/-! ### WellFormed refuses ill-formed terms -/

theorem test_ill_formed_jmp_of_ret_word : (Instr.jmp 0#3 7 0#6).wellFormed = false := by decide
theorem test_ill_formed_trap_getc : (Instr.trap 0#4 0x20#8).wellFormed = false := by decide
theorem test_ill_formed_trap_out : (Instr.trap 0#4 0x21#8).wellFormed = false := by decide
theorem test_ill_formed_trap_puts : (Instr.trap 0#4 0x22#8).wellFormed = false := by decide
theorem test_ill_formed_trap_in : (Instr.trap 0#4 0x23#8).wellFormed = false := by decide
theorem test_ill_formed_trap_putsp : (Instr.trap 0#4 0x24#8).wellFormed = false := by decide
theorem test_ill_formed_trap_halt : (Instr.trap 0xF#4 0x25#8).wellFormed = false := by decide
theorem test_well_formed_jmp_r7_with_unused_bits : (Instr.jmp 0#3 7 1#6).wellFormed = true := by decide
theorem test_well_formed_trap_bounds :
    (Instr.trap 0#4 0x1F#8).wellFormed = true ∧ (Instr.trap 0#4 0x26#8).wellFormed = true := by decide

/-! ### Decoding: words written out from spec/30_encoding.md R92, R93, and its examples -/

theorem test_decode_addReg : decode standardOpcodeMap 0b0001_010_000_0_00_001#16 = .addReg 2 0 1 0#2 := by decide
theorem test_decode_addImm : decode standardOpcodeMap 0b0001_000_001_1_00101#16 = .addImm 0 1 5#5 := by decide
theorem test_decode_andReg : decode standardOpcodeMap 0b0101_011_001_0_00_010#16 = .andReg 3 1 2 0#2 := by decide
theorem test_decode_andImm : decode standardOpcodeMap 0b0101_101_110_1_01111#16 = .andImm 5 6 15#5 := by decide
theorem test_decode_not : decode standardOpcodeMap 0b1001_001_010_111111#16 = .not 1 2 0b111111#6 := by decide
theorem test_decode_br : decode standardOpcodeMap 0b0000_1_0_1_000000010#16 = .br true false true 2#9 := by decide
theorem test_decode_jmp : decode standardOpcodeMap 0b1100_000_010_000000#16 = .jmp 0#3 2 0#6 := by decide
theorem test_decode_ret : decode standardOpcodeMap 0b1100_000_111_000000#16 = .ret := by decide
theorem test_decode_jsr : decode standardOpcodeMap 0b0100_1_10000000001#16 = .jsr 0x401#11 := by decide
theorem test_decode_jsrr : decode standardOpcodeMap 0b0100_0_00_011_000000#16 = .jsrr 0#2 3 0#6 := by decide
theorem test_decode_ld : decode standardOpcodeMap 0b0010_001_000000101#16 = .ld 1 5#9 := by decide
theorem test_decode_ldi : decode standardOpcodeMap 0b1010_010_000000001#16 = .ldi 2 1#9 := by decide
theorem test_decode_ldr : decode standardOpcodeMap 0b0110_011_100_111111#16 = .ldr 3 4 0b111111#6 := by decide
theorem test_decode_lea : decode standardOpcodeMap 0b1110_000_000000011#16 = .lea 0 3#9 := by decide
theorem test_decode_st : decode standardOpcodeMap 0b0011_000_111111110#16 = .st 0 0x1FE#9 := by decide
theorem test_decode_sti : decode standardOpcodeMap 0b1011_001_000000001#16 = .sti 1 1#9 := by decide
theorem test_decode_str : decode standardOpcodeMap 0b0111_010_110_000000#16 = .str 2 6 0#6 := by decide
theorem test_decode_trap : decode standardOpcodeMap 0b1111_0000_11111111#16 = .trap 0#4 0xFF#8 := by decide
theorem test_decode_getc : decode standardOpcodeMap 0b1111_0000_00100000#16 = .getc 0#4 := by decide
theorem test_decode_out : decode standardOpcodeMap 0b1111_0000_00100001#16 = .out 0#4 := by decide
theorem test_decode_puts : decode standardOpcodeMap 0b1111_0000_00100010#16 = .puts 0#4 := by decide
theorem test_decode_in : decode standardOpcodeMap 0b1111_0000_00100011#16 = .inp 0#4 := by decide
theorem test_decode_putsp : decode standardOpcodeMap 0b1111_0000_00100100#16 = .putsp 0#4 := by decide
theorem test_decode_halt : decode standardOpcodeMap 0b1111_1111_00100101#16 = .halt 0xF#4 := by decide
theorem test_decode_rti : decode standardOpcodeMap 0b1000_000000000000#16 = .rti 0#12 := by decide
theorem test_decode_res : decode standardOpcodeMap 0b1101_111111111111#16 = .res 0xFFF#12 := by decide

/-- The numbering of R92, so an opcode value for each name. -/
theorem test_opcodeMap_R92 :
    standardOpcodeMap.opcode 0x0#4 = .br ∧ standardOpcodeMap.opcode 0x1#4 = .add ∧ standardOpcodeMap.opcode 0x2#4 = .ld ∧
      standardOpcodeMap.opcode 0x3#4 = .st ∧ standardOpcodeMap.opcode 0x4#4 = .jsr ∧ standardOpcodeMap.opcode 0x5#4 = .and ∧
      standardOpcodeMap.opcode 0x6#4 = .ldr ∧ standardOpcodeMap.opcode 0x7#4 = .str ∧ standardOpcodeMap.opcode 0x8#4 = .rti ∧
      standardOpcodeMap.opcode 0x9#4 = .not ∧ standardOpcodeMap.opcode 0xA#4 = .ldi ∧ standardOpcodeMap.opcode 0xB#4 = .sti ∧
      standardOpcodeMap.opcode 0xC#4 = .jmp ∧ standardOpcodeMap.opcode 0xD#4 = .res ∧ standardOpcodeMap.opcode 0xE#4 = .lea ∧
      standardOpcodeMap.opcode 0xF#4 = .trap := by decide

theorem test_decodeTableWord :
    decodeTableWord 16 0xF025 = some (.halt 0#4) ∧ decodeTableWord 32 0xF025 = none ∧ decodeTableWord 8 0x25 = none ∧
      decodeTableWord 0 0 = none ∧ decodeTableWord 16 0x1F025 = none := by
  decide

theorem test_encode_words :
    encode standardOpcodeMap (.ldr 3 4 0b111111#6) = 0x673F#16 ∧
      encode standardOpcodeMap (.not 4 4 0b111111#6) = 0x993F#16 ∧
      encode standardOpcodeMap .ret = 0xC1C0#16 ∧
      encode standardOpcodeMap (.br true true true 0x1FF#9) = 0x0FFF#16 ∧
      encode standardOpcodeMap (.jsr 0x400#11) = 0x4C00#16 := by decide

/-! ### Sign extension and condition codes (95_test_vectors 3.1, 3.2) -/

theorem test_sext_5 : sext 0b11111#5 = 0xFFFF#16 ∧ sext 0b01111#5 = 0x000F#16 ∧ sext 0b10000#5 = 0xFFF0#16 := by decide
theorem test_sext_6 : sext 0b100000#6 = 0xFFE0#16 ∧ sext 0b011111#6 = 0x001F#16 := by decide
theorem test_sext_9 : sext 0x100#9 = 0xFF00#16 ∧ sext 0x0FF#9 = 0x00FF#16 := by decide
theorem test_sext_11 : sext 0x400#11 = 0xFC00#16 ∧ sext 0x3FF#11 = 0x03FF#16 := by decide
theorem test_zext_8 : zext8 0xFF#8 = 0x00FF#16 := by decide
theorem test_condOf :
    condOf Params.spec 0x0000#16 = 2#16 ∧ condOf Params.spec 0x0001#16 = 1#16 ∧ condOf Params.spec 0x7FFF#16 = 1#16 ∧
    condOf Params.spec 0x8000#16 = 4#16 ∧ condOf Params.spec 0xFFFF#16 = 4#16 := by decide

/-! ### One step of the vectors -/

/-- The parameters of 95_test_vectors section 1, the OPEN texts and exit code set to values of these tests only. -/
def params : Params where
  opcodeMap := standardOpcodeMap
  condNeg := 0x0004#16
  condZro := 0x0002#16
  condPos := 0x0001#16
  kbsrAddr := 0xFE00#16
  kbdrAddr := 0xFE02#16
  kbsrReady := 0x8000#16
  reservedBits := .ignore
  eofSentinel := 0x0000#16
  inPrompt := [0x3F#8]
  haltNotice := [0x2E#8]
  stringReadPolls := false
  exitCodeFault := 9

/-- COND unset. -/
def unset : Slot := ⟨0x0000#16, false⟩

/-- COND or a register holding `v`. -/
def holds (v : Word) : Slot := ⟨v, true⟩

/-- A start state of 95_test_vectors section 1: the listed registers written, the listed Words stored, the instruction
Word at the PC, the input ended. -/
def start (pc word : Word) (regs : List (Reg × Word)) (cond : Slot) (cells : List (Word × Word)) : State where
  gpr := regs.foldl (fun g r => g.set r.1 (holds r.2)) (Vector.replicate 8 unset)
  pc := pc
  cond := cond
  mem := Memory.write (cells.foldl (fun (m : Memory) c => m.write c.1.toNat c.2) []) pc.toNat word
  engine := .running
  phase := .idle
  console := { Console.fresh with inputEnded := true }
  abortSignal := false
  params := params

/-- The same with console input and recorded poll answers. -/
def withInput (s : State) (input : List Byte) (polls : List Bool) : State :=
  { s with console := { s.console with input := input, polls := polls } }

/-- What `f` shows of the state after one step. -/
def shows {α : Type} (f : State → α) (s : State) : Option α :=
  match step s with
  | .next t => some (f t)
  | .fault _ => none
  | .refused _ => none

theorem test_addReg_signed_overflow_V1 :
    shows (fun t => (t.gpr[(2 : Reg)], t.cond, t.pc))
      (start 0x3000#16 0x1401#16 [(0, 0x7FFF#16), (1, 0x0001#16)] unset []) =
    some (holds 0x8000#16, holds 4#16, 0x3001#16) := by decide

theorem test_addReg_unwritten_second_source_V9 :
    shows (fun t => (t.engine, t.gpr[(2 : Reg)], t.pc)) (start 0x3000#16 0x1401#16 [(0, 1#16)] unset []) =
    some (.faulted (.unwrittenRegister 1) 0x3000#16, unset, 0x3001#16) := by decide

theorem test_addImm_minus_one_V6 :
    shows (fun t => (t.gpr[(0 : Reg)], t.cond)) (start 0x3000#16 0x107F#16 [(1, 0#16)] unset []) =
    some (holds 0xFFFF#16, holds 4#16) := by decide

theorem test_addImm_pc_wraps_V121 :
    shows (fun t => (t.gpr[(0 : Reg)], t.cond, t.pc)) (start 0xFFFF#16 0x1020#16 [(0, 3#16)] unset []) =
    some (holds 3#16, holds 1#16, 0x0000#16) := by decide

theorem test_andReg_V11 :
    shows (fun t => (t.gpr[(3 : Reg)], t.cond))
      (start 0x3000#16 0x5642#16 [(1, 0xF0F0#16), (2, 0x0FF0#16)] unset []) =
    some (holds 0x00F0#16, holds 1#16) := by decide

theorem test_andImm_minus_two_V16 :
    shows (fun t => (t.gpr[(5 : Reg)], t.cond)) (start 0x3000#16 0x5BBE#16 [(6, 1#16)] unset []) =
    some (holds 0#16, holds 2#16) := by decide

theorem test_andImm_unwritten_V17 :
    shows (fun t => (t.engine, t.cond)) (start 0x3000#16 0x5020#16 [] unset []) =
    some (.faulted (.unwrittenRegister 0) 0x3000#16, unset) := by decide

theorem test_not_V20 :
    shows (fun t => (t.gpr[(1 : Reg)], t.cond)) (start 0x3000#16 0x92BF#16 [(2, 0x8000#16)] unset []) =
    some (holds 0x7FFF#16, holds 1#16) := by decide

theorem test_not_unused_bits_ignored_V21 :
    shows (fun t => t.gpr[(1 : Reg)]) (start 0x3000#16 0x9280#16 [(2, 0x5555#16)] unset []) =
    some (holds 0xAAAA#16) := by decide

theorem test_br_zp_V31_V32 :
    shows (fun t => t.pc) (start 0x3000#16 0x0602#16 [] (holds 4#16) []) = some 0x3001#16 ∧
    shows (fun t => t.pc) (start 0x3000#16 0x0602#16 [] (holds 2#16) []) = some 0x3003#16 := by decide

theorem test_br_unset_V46_V47 :
    shows (fun t => (t.engine, t.pc)) (start 0x3000#16 0x0005#16 [] unset []) = some (.running, 0x3001#16) ∧
    shows (fun t => (t.engine, t.pc)) (start 0x3000#16 0x0E05#16 [] unset []) =
      some (.faulted .unsetCond 0x3000#16, 0x3001#16) := by decide

theorem test_br_wraps_V52 : shows (fun t => t.pc) (start 0xFFFF#16 0x0E01#16 [] (holds 1#16) []) = some 0x0001#16 := by
  decide

theorem test_jmp_V54 :
    shows (fun t => (t.pc, t.cond)) (start 0x3000#16 0xC080#16 [(2, 0x4000#16)] unset []) =
    some (0x4000#16, unset) := by decide

theorem test_ret_V55 : shows (fun t => t.pc) (start 0x3000#16 0xC1C0#16 [(7, 0x1234#16)] unset []) = some 0x1234#16 := by
  decide

theorem test_jsr_V59 :
    shows (fun t => (t.gpr[(7 : Reg)], t.pc)) (start 0x3000#16 0x4C00#16 [] unset []) =
    some (holds 0x3001#16, 0x2C01#16) := by decide

theorem test_jsrr_r7_V65 :
    shows (fun t => (t.engine, t.gpr[(7 : Reg)], t.pc)) (start 0x3000#16 0x41C0#16 [] unset []) =
    some (.running, holds 0x3001#16, 0x3001#16) := by decide

theorem test_jsrr_unwritten_base_V66 :
    shows (fun t => (t.engine, t.gpr[(7 : Reg)], t.pc)) (start 0x3000#16 0x4080#16 [] unset []) =
    some (.faulted (.unwrittenRegister 2) 0x3000#16, holds 0x3001#16, 0x3001#16) := by decide

theorem test_ld_loads_itself_V69 :
    shows (fun t => (t.gpr[(1 : Reg)], t.cond)) (start 0x3000#16 0x23FF#16 [] unset []) =
    some (holds 0x23FF#16, holds 1#16) := by decide

theorem test_ld_polls_V70 :
    shows (fun t => (t.gpr[(1 : Reg)], t.memPeek 0xFE00#16, t.memPeek 0xFE02#16, t.console.input))
      (withInput (start 0xFDF0#16 0x220F#16 [] unset []) [0x6B#8] [true]) =
    some (holds 0x8000#16, 0x8000#16, 0x006B#16, []) := by decide

theorem test_ldi_V73 :
    shows (fun t => (t.gpr[(2 : Reg)], t.cond))
      (start 0x3000#16 0xA401#16 [] unset [(0x3002#16, 0x4000#16), (0x4000#16, 42#16)]) =
    some (holds 42#16, holds 1#16) := by decide

theorem test_ldi_pointer_polls_V74 :
    shows (fun t => (t.gpr[(2 : Reg)], t.memPeek 0xFE02#16))
      (withInput (start 0x3000#16 0xA401#16 [] unset [(0x3002#16, 0xFE00#16)]) [0x51#8] [true]) =
    some (holds 0x8000#16, 0x0051#16) := by decide

theorem test_ldr_wraps_V77 :
    shows (fun t => t.gpr[(3 : Reg)])
      (start 0x3000#16 0x6701#16 [(4, 0xFFFF#16)] unset [(0x0000#16, 0x7777#16)]) = some (holds 0x7777#16) := by decide

theorem test_ldr_same_register_V78 :
    shows (fun t => (t.gpr[(4 : Reg)], t.cond))
      (start 0x3000#16 0x691F#16 [(4, 0x4000#16)] unset [(0x401F#16, 0x9999#16)]) =
    some (holds 0x9999#16, holds 4#16) := by decide

theorem test_lea_V82 :
    shows (fun t => (t.gpr[(0 : Reg)], t.cond, t.pc)) (start 0xFFFE#16 0xE001#16 [] unset []) =
    some (holds 0x0000#16, holds 2#16, 0xFFFF#16) := by decide

theorem test_lea_does_not_poll_V84 :
    shows (fun t => (t.gpr[(0 : Reg)], t.memPeek 0xFE00#16, t.console.input))
      (withInput (start 0xFDF0#16 0xE00F#16 [] unset [(0xFE00#16, 0x1234#16)]) [0x7A#8] [true]) =
    some (holds 0xFE00#16, 0x1234#16, [0x7A#8]) := by decide

theorem test_st_V85 :
    shows (fun t => (t.memPeek 0x2FFF#16, t.cond)) (start 0x3000#16 0x31FE#16 [(0, 0xBEEF#16)] unset []) =
    some (0xBEEF#16, unset) := by decide

theorem test_st_to_kbsr_V88 :
    shows (fun t => t.memPeek 0xFE00#16) (start 0xFDF0#16 0x300F#16 [(0, 0x1234#16)] unset []) = some 0x1234#16 := by
  decide

theorem test_sti_V90 :
    shows (fun t => t.memPeek 0x4000#16) (start 0x3000#16 0xB201#16 [(1, 7#16)] unset [(0x3002#16, 0x4000#16)]) =
    some 7#16 := by decide

theorem test_sti_pointer_overwrites_itself_V91 :
    shows (fun t => t.memPeek 0x3002#16)
      (start 0x3000#16 0xB201#16 [(1, 0xAAAA#16)] unset [(0x3002#16, 0x3002#16)]) = some 0xAAAA#16 := by decide

theorem test_str_same_register_V94 :
    shows (fun t => t.memPeek 0x4FFF#16) (start 0x3000#16 0x7DBF#16 [(6, 0x5000#16)] unset []) = some 0x5000#16 := by
  decide

theorem test_str_wraps_V95 :
    shows (fun t => t.memPeek 0x0000#16) (start 0x3000#16 0x7581#16 [(2, 9#16), (6, 0xFFFF#16)] unset []) =
    some 9#16 := by decide

theorem test_getc_V98 :
    shows (fun t => (t.gpr[(0 : Reg)], t.gpr[(7 : Reg)], t.cond))
      (withInput (start 0x3000#16 0xF020#16 [] (holds 4#16) []) [0xFF#8] []) =
    some (holds 0x00FF#16, holds 0x3001#16, holds 4#16) := by decide

theorem test_getc_end_of_input_V97 :
    shows (fun t => (t.gpr[(0 : Reg)], t.phase)) (start 0x3000#16 0xF020#16 [(0, 0x1234#16)] unset []) =
    some (holds 0x0000#16, .idle) := by decide

theorem test_out_V100 :
    shows (fun t => (t.console.output, t.gpr[(0 : Reg)])) (start 0x3000#16 0xF021#16 [(0, 0x1241#16)] unset []) =
    some ([0x41#8], holds 0x1241#16) := by decide

theorem test_out_unwritten_V101 :
    shows (fun t => (t.engine, t.gpr[(7 : Reg)])) (start 0x3000#16 0xF021#16 [] unset []) =
    some (.faulted (.unwrittenRegister 0) 0x3000#16, holds 0x3001#16) := by decide

theorem test_puts_wraps_V105 :
    shows (fun t => (t.console.output, t.phase))
      (start 0x3000#16 0xF022#16 [(0, 0xFFFF#16)] unset [(0xFFFF#16, 0x41#16), (0x0000#16, 0x42#16)]) =
    some ([0x41#8, 0x42#8], .idle) := by decide

theorem test_puts_high_byte_ignored_V103 :
    shows (fun t => t.console.output)
      (start 0x3000#16 0xF022#16 [(0, 0x4000#16)] unset [(0x4000#16, 0x7F41#16), (0x4001#16, 0x4100#16)]) =
    some [0x41#8, 0x00#8] := by decide

theorem test_in_V107 :
    shows (fun t => (t.gpr[(0 : Reg)], t.console.output, t.console.delivered))
      (withInput (start 0x3000#16 0xF023#16 [] unset []) [0x37#8] []) =
    some (holds 0x0037#16, params.inPrompt ++ [0x37#8], 2) := by decide

theorem test_in_end_of_input_V108 :
    shows (fun t => (t.gpr[(0 : Reg)], t.console.output)) (start 0x3000#16 0xF023#16 [] unset []) =
    some (holds 0x0000#16, params.inPrompt) := by decide

theorem test_putsp_low_byte_first_V109 :
    shows (fun t => t.console.output)
      (start 0x3000#16 0xF024#16 [(0, 0x4000#16)] unset
        [(0x4000#16, 0x6548#16), (0x4001#16, 0x6C6C#16), (0x4002#16, 0x006F#16)]) =
    some [0x48#8, 0x65#8, 0x6C#8, 0x6C#8, 0x6F#8] := by decide

theorem test_putsp_low_byte_zero_V111 :
    shows (fun t => t.console.output)
      (start 0x3000#16 0xF024#16 [(0, 0x4000#16)] unset [(0x4000#16, 0x4100#16), (0x4001#16, 0x4242#16)]) =
    some [] := by decide

theorem test_halt_V117 :
    shows (fun t => (t.engine, t.console.output, t.exitCode)) (start 0x3000#16 0xFF25#16 [] unset []) =
    some (.halted .haltTrap, params.haltNotice, some 0) := by decide

theorem test_trap_unhandled_V114 :
    shows (fun t => (t.engine, t.gpr[(7 : Reg)], t.console.output)) (start 0x3000#16 0xF026#16 [] unset []) =
    some (.halted (.unhandledTrap 0x3000#16 0x26#8), holds 0x3001#16, []) := by decide

theorem test_rti_V118 :
    shows (fun t => (t.engine, t.pc)) (start 0x3000#16 0x8000#16 [] unset []) =
    some (.halted (.invalidOpcode 0x3000#16 0x8#4), 0x3001#16) := by decide

theorem test_res_V120 :
    shows (fun t => (t.engine, t.gpr[(0 : Reg)], t.cond)) (start 0x3000#16 0xDFFF#16 [(0, 1#16)] (holds 1#16) []) =
    some (.halted (.invalidOpcode 0x3000#16 0xD#4), holds 1#16, holds 1#16) := by decide

theorem test_fetch_at_kbsr_V122 :
    shows (fun t => (t.engine, t.pc, t.memPeek 0xFE02#16))
      (withInput (start 0xFE00#16 0x1234#16 [] unset []) [0x61#8] [true]) =
    some (.halted (.invalidOpcode 0xFE00#16 0x8#4), 0xFE01#16, 0x0061#16) := by decide

/-- A string read at `KBSR_ADDR`, with and without `TRAP_STRING_READ_POLLS` (R210): the poll's 0x8000 prints 0x00. -/
def stringAtKbsr (polls : Bool) : State :=
  { withInput (start 0x3000#16 0xF022#16 [(0, 0xFE00#16)] unset [(0xFE00#16, 0x0042#16)]) [0x71#8] [true] with
    params := { params with stringReadPolls := polls } }

theorem test_puts_string_read_polls_R210 :
    shows (fun t => (t.console.output, t.console.input, t.memPeek 0xFE00#16)) (stringAtKbsr true) =
      some ([0x00#8], [], 0x8000#16) ∧
    shows (fun t => (t.console.output, t.console.input, t.memPeek 0xFE00#16)) (stringAtKbsr false) =
      some ([0x42#8], [0x71#8], 0x0042#16) := by decide

/-- R96 under `fault`: the Word of V10 stops after the fetch. -/
theorem test_reserved_bits_fault :
    shows (fun t => (t.engine, t.pc, t.gpr[(2 : Reg)]))
      { start 0x3000#16 0x1419#16 [(0, 2#16), (1, 3#16)] unset [] with params := { params with reservedBits := .fault } } =
    some (.faulted .reservedBits 0x3000#16, 0x3001#16, unset) := by decide

/-- The first step after reset runs the placed Word: LEA R0, #3 (V81). -/
theorem test_withFetchWord :
    shows (fun t => (t.gpr[(0 : Reg)], t.pc)) (State.reset.withFetchWord 16 0xE003) =
    some (holds 0x3004#16, 0x3001#16) := by decide

/-- R254: no step from HALTED. -/
theorem test_no_step_from_halted :
    step { start 0x3000#16 0x1401#16 [] unset [] with engine := .halted .haltTrap } = .fault .engineHalted := rfl

/-- R80: the origin, then the Words, high byte first. -/
theorem test_parseImage :
    parseImage [0x30#8, 0x00#8, 0xF0#8, 0x25#8] = .ok ⟨0x3000#16, [0xF025#16]⟩ ∧
      parseImage [0x30#8] = .error .oddLength ∧ parseImage [] = .error .tooShort := ⟨rfl, rfl, rfl⟩

/-! ### The hypotheses of the statements can be met -/

/-- What `f` shows of the state after `i`. -/
def execShows {α : Type} (f : State → α) (i : Instr) (s : State) : Option α :=
  match exec i s with
  | .next t => some (f t)
  | .fault _ => none
  | .refused _ => none

theorem next_of_shows {α : Type} {f : State → α} {s : State} {x : α} (h : shows f s = some x) :
    ∃ t, step s = .next t ∧ f t = x := by
  unfold shows at h
  split at h
  next t ht => exact ⟨t, ht, Option.some.inj h⟩
  · cases h
  · cases h

theorem next_of_execShows {α : Type} {f : State → α} {i : Instr} {s : State} {x : α} (h : execShows f i s = some x) :
    ∃ t, exec i s = .next t ∧ f t = x := by
  unfold execShows at h
  split at h
  next t ht => exact ⟨t, ht, Option.some.inj h⟩
  · cases h
  · cases h

/-- R0, R1, R7 written, COND set, a few Words stored, the PC at an ADD R2, R0, R1. -/
def busy : State :=
  start 0x3000#16 0x1401#16 [(0, 0x4000#16), (1, 0x0001#16), (7, 0x1234#16)] (holds 1#16)
    [(0x3002#16, 0x4000#16), (0x4000#16, 0x0041#16), (0x4001#16, 0x0042#16)]

/-- No register written, COND unset. -/
def blank : State := start 0x3000#16 0x1401#16 [] unset []

theorem test_hyp_DecodeOfEncode :
    standardOpcodeMap.Legal ∧ (Instr.jmp 0#3 7 0x3F#6).wellFormed = true ∧ (Instr.trap 0#4 0x26#8).wellFormed = true ∧
      (Instr.getc 0xF#4).wellFormed = true := by decide

/-- Standard Words, and one Word with a wrong unused bit for each format of R96. -/
theorem test_hyp_UnusedBitsPolicy_masks :
    (decode standardOpcodeMap 0x1401#16).standardBits = true ∧ (decode standardOpcodeMap 0x993F#16).standardBits = true ∧
      (decode standardOpcodeMap 0x8FFF#16).standardBits = true ∧ (decode standardOpcodeMap 0xDFFF#16).standardBits = true ∧
      (decode standardOpcodeMap 0x1419#16).standardBits = false ∧ (decode standardOpcodeMap 0x5648#16).standardBits = false ∧
      (decode standardOpcodeMap 0x9280#16).standardBits = false ∧ (decode standardOpcodeMap 0xC081#16).standardBits = false ∧
      (decode standardOpcodeMap 0xC280#16).standardBits = false ∧ (decode standardOpcodeMap 0x40C1#16).standardBits = false ∧
      (decode standardOpcodeMap 0x44C0#16).standardBits = false ∧
      (decode standardOpcodeMap 0xF125#16).standardBits = false := by decide

theorem test_hyp_UnusedBitsPolicy_same :
    (decode standardOpcodeMap 0x1401#16).standardized = (decode standardOpcodeMap 0x1419#16).standardized := by decide

theorem test_hyp_UnusedBitsPolicy_ignore :
    busy.engine = .running ∧ busy.phase = .idle ∧ busy.abortSignal = false ∧ busy.params.reservedBits = .ignore := by
  decide

/-- The state of `test_reserved_bits_fault`. -/
def strict : State := { start 0x3000#16 0x1419#16 [] unset [] with params := { params with reservedBits := .fault } }

theorem test_hyp_UnusedBitsPolicy_fault :
    strict.engine = .running ∧ strict.phase = .idle ∧ strict.abortSignal = false ∧
      strict.params.reservedBits = .fault ∧
      (decode strict.params.opcodeMap (strict.memRead strict.pc).1).standardBits = false := by decide

theorem test_hyp_ExtensionBits : 0 < 1 ∧ 16 ≤ 16 ∧ 15 < 16 := by decide

theorem test_hyp_StepRunsTheDecodedInstruction :
    (busy.engine = .running ∧ busy.phase = .idle ∧ busy.abortSignal = false) ∧
      (strict.engine = .running ∧ strict.phase = .idle ∧ strict.abortSignal = false) := by decide

theorem test_hyp_StepExistsExactlyWhenRunning :
    busy.engine = .running ∧ ({ busy with engine := .halted .aborted } : State).engine ≠ .running := by decide

theorem test_hyp_HostAbortEndsTheRun :
    busy.engine = .running ∧ busy.hostAbort.abortSignal = true ∧ busy.phase = .idle ∧
      (busy.setPhase .getc).hostAbort.phase = .getc ∧ (busy.setPhase .inp).hostAbort.phase = .inp ∧
      (busy.setPhase .inp).hostAbort.engine = .running := by decide

theorem test_hyp_EventsThatEndARun_aborted : ∃ t, step busy.hostAbort = .next t ∧ t.engine = .halted .aborted :=
  next_of_shows (f := State.engine) (by decide)
theorem test_hyp_EventsThatEndARun_haltTrap :
    ∃ t, step (start 0x3000#16 0xF025#16 [] unset []) = .next t ∧ t.engine = .halted .haltTrap :=
  next_of_shows (f := State.engine) (by decide)
theorem test_hyp_EventsThatEndARun_rti :
    ∃ t, step (start 0x3000#16 0x8000#16 [] unset []) = .next t ∧ t.engine = .halted (.invalidOpcode 0x3000#16 0x8#4) :=
  next_of_shows (f := State.engine) (by decide)
theorem test_hyp_EventsThatEndARun_res :
    ∃ t, step (start 0xFFFF#16 0xD000#16 [] unset []) = .next t ∧ t.engine = .halted (.invalidOpcode 0xFFFF#16 0xD#4) :=
  next_of_shows (f := State.engine) (by decide)
theorem test_hyp_EventsThatEndARun_unhandled :
    ∃ t, step (start 0x3000#16 0xF01F#16 [] unset []) = .next t ∧
      t.engine = .halted (.unhandledTrap 0x3000#16 0x1F#8) :=
  next_of_shows (f := State.engine) (by decide)
theorem test_hyp_EventsThatEndARun_unwritten :
    ∃ t, step blank = .next t ∧ t.engine = .faulted (.unwrittenRegister 0) 0x3000#16 :=
  next_of_shows (f := State.engine) (by decide)
theorem test_hyp_EventsThatEndARun_unsetCond :
    ∃ t, step (start 0x3000#16 0x0E05#16 [] unset []) = .next t ∧ t.engine = .faulted .unsetCond 0x3000#16 :=
  next_of_shows (f := State.engine) (by decide)
theorem test_hyp_EventsThatEndARun_reservedBits :
    ∃ t, step strict = .next t ∧ t.engine = .faulted .reservedBits 0x3000#16 :=
  next_of_shows (f := State.engine) (by decide)

theorem test_hyp_HaltEntryChangesNothingElse_trap :
    (Instr.halt 0#4).wellFormed = true ∧ busy.engine = .running ∧
      ∃ t, exec (.halt 0#4) busy = .next t ∧ t.engine = .halted .haltTrap :=
  ⟨by decide, by decide, next_of_execShows (f := State.engine) (by decide)⟩
theorem test_hyp_HaltEntryChangesNothingElse_jsrr :
    (Instr.jsrr 0#2 2 0#6).wellFormed = true ∧ busy.engine = .running ∧
      ∃ t, exec (.jsrr 0#2 2 0#6) busy = .next t ∧ t.engine = .faulted (.unwrittenRegister 2) 0x2FFF#16 :=
  ⟨by decide, by decide, next_of_execShows (f := State.engine) (by decide)⟩
theorem test_hyp_HaltEntryChangesNothingElse_other :
    (Instr.rti 0#12).wellFormed = true ∧ (Instr.rti 0#12).isTrap = false ∧
      ∃ t, exec (.rti 0#12) busy = .next t ∧ t.engine = .halted (.invalidOpcode 0x2FFF#16 0x8#4) :=
  ⟨by decide, by decide, next_of_execShows (f := State.engine) (by decide)⟩

theorem test_hyp_CondIsWrittenByFlagSettersOnly_sets :
    busy.engine = .running ∧ (Instr.lea 0 0#9).flagDest = some 0 ∧
      ∃ t, exec (.lea 0 0#9) busy = .next t ∧ t.engine = .running :=
  ⟨by decide, by decide, next_of_execShows (f := State.engine) (by decide)⟩
theorem test_hyp_CondIsWrittenByFlagSettersOnly_not :
    (Instr.st 0 0#9).flagDest = none ∧ (∃ t, exec (.st 0 0#9) busy = .next t ∧ t.engine = .running) ∧
      ∃ t, exec (.addImm 0 3 0#5) busy = .next t ∧ t.engine = .faulted (.unwrittenRegister 3) 0x2FFF#16 :=
  ⟨by decide, next_of_execShows (f := State.engine) (by decide), next_of_execShows (f := State.engine) (by decide)⟩

theorem test_hyp_OnlyListedRegistersAreWritten :
    (Instr.getc 0#4).wellFormed = true ∧ (1 : Reg) ∉ (Instr.getc 0#4).gprWrites ∧
      ∃ t, exec (.getc 0#4) busy = .next t ∧ t.engine = .running :=
  ⟨by decide, by decide, next_of_execShows (f := State.engine) (by decide)⟩
theorem test_hyp_OnlyListedRegistersAreRead :
    (Instr.addImm 2 1 1#5).wellFormed = true ∧ (2 : Reg) ∉ (Instr.addImm 2 1 1#5).gprReads ∧
      (3 : Reg) ∉ (Instr.addImm 2 1 1#5).gprReads ∧ (3 : Reg) ∉ (Instr.addImm 2 1 1#5).gprWrites ∧
      ∃ t, exec (.addImm 2 1 1#5) busy = .next t ∧ t.engine = .running :=
  ⟨by decide, by decide, by decide, by decide, next_of_execShows (f := State.engine) (by decide)⟩
theorem test_hyp_PcAfterEachInstruction :
    busy.engine = .running ∧
      (∃ t, exec (.br false false true 0x1FF#9) busy = .next t ∧ (t.engine, t.pc) = (.running, 0x2FFF#16)) ∧
      (∃ t, exec (.jsrr 0#2 7 0#6) busy = .next t ∧ (t.engine, t.pc) = (.running, 0x3000#16)) ∧
      (∃ t, exec (.halt 0#4) busy = .next t ∧ (t.engine, t.pc) = (.halted .haltTrap, 0x3000#16)) :=
  ⟨by decide, next_of_execShows (f := fun t => (t.engine, t.pc)) (by decide),
    next_of_execShows (f := fun t => (t.engine, t.pc)) (by decide),
    next_of_execShows (f := fun t => (t.engine, t.pc)) (by decide)⟩

theorem test_hyp_step_answers :
    busy.gpr[(0 : Reg)].written = true ∧ busy.cond.written = true ∧ ∃ t, step busy = .next t ∧ t.engine = .running :=
  ⟨by decide, by decide, next_of_shows (f := State.engine) (by decide)⟩

theorem test_hyp_Legal : Legal params := ⟨by decide, by decide, by decide, by decide, by decide⟩

/-- Another choice of R6: the opcodes numbered backwards, NEG and POS exchanged. -/
def otherParams : Params :=
  { params with
    opcodeMap := #v[.trap, .lea, .res, .jmp, .sti, .ldi, .not, .rti, .str, .ldr, .and, .jsr, .st, .ld, .add, .br]
    condNeg := 0x0001#16
    condPos := 0x0004#16 }

theorem test_hyp_Legal_other : Legal otherParams := ⟨by decide, by decide, by decide, by decide, by decide⟩

/-- A step takes the opcode and the flag from the parameters (R6): V1's ADD with opcode 0xE, and RTI's record 0x7. -/
theorem test_other_parameters_R6 :
    shows (fun t => (t.gpr[(2 : Reg)], t.cond))
        { start 0x3000#16 0xE401#16 [(0, 0x7FFF#16), (1, 0x0001#16)] unset [] with params := otherParams } =
      some (holds 0x8000#16, holds 1#16) ∧
    shows State.engine { start 0x3000#16 0x7000#16 [] unset [] with params := otherParams } =
      some (.halted (.invalidOpcode 0x3000#16 0x7#4)) := by decide

theorem test_hyp_opcode_maps :
    standardOpcodeMap.Legal ∧ otherParams.opcodeMap.Legal ∧ busy.params.opcodeMap.Legal ∧
      busy.params.opcodeMap.opcode 0x1#4 = .add ∧ otherParams.opcodeMap.opcode 0x7#4 = .rti := by decide

theorem test_hyp_StepKeepsInvariant : busy.Inv :=
  ⟨by decide, by decide, by decide, by decide, by decide, test_hyp_Legal⟩

/-- An image that fills the last Word of memory. -/
def lastWord : Image := ⟨0xFFFF#16, [0xF025#16]⟩

theorem test_hyp_LaunchSatisfiesInvariant :
    Legal params ∧ ∃ s, launch params ⟨[lastWord], 0xFFFF#16, none, [], true, []⟩ = .ok s :=
  ⟨test_hyp_Legal, _, rfl⟩

theorem test_hyp_WrittenMachineNeverFaults :
    ∃ s : State, s.isFaulted = false ∧ (∀ r : Reg, s.gpr[r].written = true) ∧ s.cond.written = true ∧
      s.params.reservedBits = .ignore :=
  ⟨{ busy with gpr := Vector.replicate 8 (holds 5#16) }, by decide, by decide, by decide, by decide⟩

theorem test_hyp_FrameOfRegisterInstructions :
    (Instr.jsr 0#11).noDataAccess = true ∧ (Instr.jsr 0#11).isTrap = false ∧
      (1 : Reg) ∉ (Instr.jsr 0#11).gprWrites ∧ (Instr.jsr 0#11).flagDest = none ∧
      ∃ t, exec (.jsr 0#11) busy = .next t ∧ t.engine = .running :=
  ⟨by decide, by decide, by decide, by decide, next_of_execShows (f := State.engine) (by decide)⟩

/-- LD, LDI and LDR of plain Words. -/
theorem test_hyp_FrameOfLoads :
    (∃ t, exec (.ld 2 2#9) busy = .next t ∧ t.gpr[(2 : Reg)] = holds 0x4000#16) ∧
      (∃ t, exec (.ldi 2 2#9) busy = .next t ∧ t.gpr[(2 : Reg)] = holds 0x0041#16) ∧
      (∃ t, exec (.ldr 2 0 1#6) busy = .next t ∧ t.gpr[(2 : Reg)] = holds 0x0042#16) ∧
      pcRel9 busy.pc 2#9 ≠ busy.params.kbsrAddr ∧ busy.memPeek (pcRel9 busy.pc 2#9) ≠ busy.params.kbsrAddr ∧
      baseOff6 busy.gpr[(0 : Reg)].value 1#6 ≠ busy.params.kbsrAddr := by
  refine ⟨next_of_execShows (f := fun t => t.gpr[(2 : Reg)]) (by decide),
    next_of_execShows (f := fun t => t.gpr[(2 : Reg)]) (by decide),
    next_of_execShows (f := fun t => t.gpr[(2 : Reg)]) (by decide), by decide, by decide, by decide⟩

theorem test_hyp_FrameOfDirectStores :
    (∃ t, exec (.st 1 0x1FF#9) busy = .next t ∧ t.memPeek (pcRel9 busy.pc 0x1FF#9) = 1#16) ∧
      (∃ t, exec (.str 1 0 0x3F#6) busy = .next t ∧ t.memPeek (baseOff6 busy.gpr[(0 : Reg)].value 0x3F#6) = 1#16) :=
  ⟨next_of_execShows (f := fun t => t.memPeek (pcRel9 busy.pc 0x1FF#9)) (by decide),
    next_of_execShows (f := fun t => t.memPeek (baseOff6 busy.gpr[(0 : Reg)].value 0x3F#6)) (by decide)⟩

theorem test_hyp_FrameOfIndirectStore :
    (∃ t, exec (.sti 1 2#9) busy = .next t ∧ t.memPeek 0x4000#16 = 1#16) ∧
      pcRel9 busy.pc 2#9 ≠ busy.params.kbsrAddr ∧
      (∃ t, exec (.sti 1 0x0F#9) (withInput { busy with pc := 0xFDF1#16 } [0x61#8] [true]) = .next t ∧
        t.memPeek 0x8000#16 = 1#16) ∧
      pcRel9 0xFDF1#16 0x0F#9 = busy.params.kbsrAddr :=
  ⟨next_of_execShows (f := fun t => t.memPeek 0x4000#16) (by decide), by decide,
    next_of_execShows (f := fun t => t.memPeek 0x8000#16) (by decide), by decide⟩

theorem test_hyp_FrameOfTraps :
    (Instr.out 0#4).wellFormed = true ∧ (Instr.out 0#4).isTrap = true ∧ (Instr.out 0#4).noDataAccess = true ∧
      (∃ t, exec (.out 0#4) busy = .next t ∧ t.engine = .running) ∧ (Instr.puts 0#4).isTrap = true ∧
      busy.params.stringReadPolls = false ∧ (∃ t, exec (.puts 0#4) busy = .next t ∧ t.engine = .running) :=
  ⟨by decide, by decide, by decide, next_of_execShows (f := State.engine) (by decide), by decide, by decide,
    next_of_execShows (f := State.engine) (by decide)⟩

/-- Written and unwritten sources, for ADD, AND, NOT, JMP, LDR, ST, STI and STR. -/
theorem test_hyp_written_and_unwritten :
    busy.gpr[(0 : Reg)].written = true ∧ busy.gpr[(1 : Reg)].written = true ∧ busy.gpr[(7 : Reg)].written = true ∧
      busy.gpr[(2 : Reg)].written = false ∧ blank.gpr[(7 : Reg)].written = false ∧
      blank.gpr[(0 : Reg)].written = false := by decide

theorem test_hyp_BranchResult :
    (true || false || false) = true ∧ blank.cond.written = false ∧ busy.cond.written = true := by decide

/-- A negative value, zero, and the largest positive one, where NEG is bit 2 and where it is bit 0. -/
theorem test_hyp_BranchFollowsTheSign :
    (Legal params ∧ Legal otherParams) ∧ params.condNeg = 0x0004#16 ∧ otherParams.condNeg = 0x0001#16 ∧
      ({ blank with cond := holds 4#16 } : State).cond = ⟨condOf params 0x8000#16, true⟩ ∧
      ({ blank with cond := holds 2#16 } : State).cond = ⟨condOf params 0x0000#16, true⟩ ∧
      busy.cond = ⟨condOf params 0x7FFF#16, true⟩ ∧ busy.cond = ⟨condOf otherParams 0x8000#16, true⟩ ∧
      ({ blank with cond := holds 4#16 } : State).cond = ⟨condOf otherParams 0x7FFF#16, true⟩ :=
  ⟨⟨test_hyp_Legal, test_hyp_Legal_other⟩, by decide⟩

theorem test_hyp_SubroutineCallResults :
    (0 : Reg) ≠ 7 ∧ busy.gpr[(0 : Reg)].written = true ∧ (6 : Reg) ≠ 7 ∧ busy.gpr[(6 : Reg)].written = false := by
  decide

/-- The three answers of a poll: a key, no key although a byte is there, no byte. -/
theorem test_hyp_MemReadPollsAtKbsr :
    (withInput busy [0x61#8, 0x62#8] [true]).console.poll.1 = some 0x61#8 ∧
      (withInput busy [0x61#8] [false]).console.poll.1 = none ∧ (withInput busy [] [true]).console.poll.1 = none ∧
      (0xFDFF#16 : Word) ≠ busy.params.kbsrAddr ∧ (0xFE00#16 : Word) = busy.params.kbsrAddr ∧
      busy.params.stringReadPolls = false ∧
      ({ busy with params := { params with stringReadPolls := true } } : State).params.stringReadPolls = true := by
  decide

theorem test_hyp_PollConsumesTheNextByteOrNone :
    (withInput busy [0x61#8] [true]).console.input = 0x61#8 :: [] ∧
      (withInput busy [0x61#8] [true]).console.polls = true :: [] ∧
      (withInput busy [0x61#8] [false]).console.polls = false :: [] ∧ busy.console.input = [] := by decide

theorem test_hyp_MemWriteStoresOneWord : busy.mem.wf = true ∧ (0xFFFF#16 : Word) ≠ 0x0000#16 := by decide

theorem test_hyp_LoadAfterStore :
    busy.mem.wf = true ∧ Legal busy.params ∧ (0xFE01#16 : Word) ≠ busy.params.kbsrAddr ∧
      (0xFE00#16 : Word) = busy.params.kbsrAddr :=
  ⟨by decide, test_hyp_Legal, by decide, by decide⟩

theorem test_hyp_TrapLinksAndDispatches :
    (Instr.inp 0#4).wellFormed = true ∧ (Instr.inp 0#4).isTrap = true ∧
      ∃ t, exec (.inp 0#4) busy = .next t ∧ t.engine = .running :=
  ⟨by decide, by decide, next_of_execShows (f := State.engine) (by decide)⟩

/-- A byte, the end of input, and no answer yet, in a state that starts GETC or IN. -/
theorem test_hyp_GetcResult_InResult_start :
    ((withInput busy [0x61#8] []).phase = .idle ∧ (withInput busy [0x61#8] []).console.input = 0x61#8 :: []) ∧
      (busy.phase = .idle ∧ busy.console.input = [] ∧ busy.console.inputEnded = true) ∧
      (State.reset.phase = .idle ∧ State.reset.console.input = [] ∧ State.reset.console.inputEnded = false) := by
  decide

/-- The same three in a state that waits in GETC. -/
theorem test_hyp_GetcResult_wait :
    let waits := fun s : State => s.engine = .running ∧ s.abortSignal = false ∧ s.phase = .getc
    (waits ((withInput busy [0x61#8] []).setPhase .getc) ∧
        ((withInput busy [0x61#8] []).setPhase .getc).console.input = 0x61#8 :: []) ∧
      (waits (busy.setPhase .getc) ∧ (busy.setPhase .getc).console.input = [] ∧
        (busy.setPhase .getc).console.inputEnded = true) ∧
      (waits (State.reset.setPhase .getc) ∧ (State.reset.setPhase .getc).console.input = [] ∧
        (State.reset.setPhase .getc).console.inputEnded = false) := by decide

/-- The same three in a state that waits in IN. -/
theorem test_hyp_InResult_wait :
    let waits := fun s : State => s.engine = .running ∧ s.abortSignal = false ∧ s.phase = .inp
    (waits ((withInput busy [0x61#8] []).setPhase .inp) ∧
        ((withInput busy [0x61#8] []).setPhase .inp).console.input = 0x61#8 :: []) ∧
      (waits (busy.setPhase .inp) ∧ (busy.setPhase .inp).console.input = [] ∧
        (busy.setPhase .inp).console.inputEnded = true) ∧
      (waits (State.reset.setPhase .inp) ∧ (State.reset.setPhase .inp).console.input = [] ∧
        (State.reset.setPhase .inp).console.inputEnded = false) := by decide

/-- A string of two Words, and an empty one. -/
theorem test_hyp_PutsPrintsTheString :
    busy.phase = .idle ∧ busy.gpr[(0 : Reg)] = ⟨0x4000#16, true⟩ ∧ busy.params.stringReadPolls = false ∧
      (∀ k, k < 2 → busy.memPeek (0x4000#16 + BitVec.ofNat 16 k) ≠ 0x0000#16) ∧
      busy.memPeek (0x4000#16 + BitVec.ofNat 16 2) = 0x0000#16 ∧
      busy.memPeek (0x5000#16 + BitVec.ofNat 16 0) = 0x0000#16 := by decide

theorem test_hyp_PutsPrintsTheString_polls :
    ∀ k, k ≤ 2 → 0x4000#16 + BitVec.ofNat 16 k ≠ busy.params.kbsrAddr := by decide

/-- Two bytes and a zero Word; a zero low byte; a zero high byte. -/
theorem test_hyp_PutspPrintsThePackedString :
    let s := start 0x3000#16 0xF024#16 [(0, 0x4000#16)] unset [(0x4000#16, 0x6948#16), (0x5000#16, 0x0041#16)]
    s.phase = .idle ∧ s.gpr[(0 : Reg)] = ⟨0x4000#16, true⟩ ∧ s.params.stringReadPolls = false ∧
      (∀ k, k < 1 → (s.memPeek (0x4000#16 + BitVec.ofNat 16 k)).extractLsb' 0 8 ≠ 0x00#8 ∧
        (s.memPeek (0x4000#16 + BitVec.ofNat 16 k)).extractLsb' 8 8 ≠ 0x00#8) ∧
      (s.memPeek (0x4000#16 + BitVec.ofNat 16 1)).extractLsb' 0 8 = 0x00#8 ∧
      (s.memPeek (0x5000#16 + BitVec.ofNat 16 0)).extractLsb' 8 8 = 0x00#8 := by decide

/-- One Word, read at `KBSR_ADDR` by a poll, then a zero Word, for PUTS. -/
theorem test_hyp_StringRoutinesFollowTheirReads :
    ∃ (s : State) (σ : Nat → State) (t : State), s.gpr[(0 : Reg)] = ⟨0xFE00#16, true⟩ ∧
      s.params.stringReadPolls = true ∧ σ 0 = { s with gpr := s.gpr.set (7 : Reg) ⟨s.pc, true⟩ } ∧
      (∀ k, k < 1 → ∃ w t, (σ k).strRead (0xFE00#16 + BitVec.ofNat 16 k) = (w, t) ∧ w ≠ 0x0000#16 ∧
        σ (k + 1) = t.put [w.extractLsb' 0 8]) ∧
      (σ 1).strRead (0xFE00#16 + BitVec.ofNat 16 1) = (0x0000#16, t) := by
  let s := stringAtKbsr true
  let next := fun (k : Nat) (t : State) =>
    (t.strRead (0xFE00#16 + BitVec.ofNat 16 k)).2.put
      [(t.strRead (0xFE00#16 + BitVec.ofNat 16 k)).1.extractLsb' 0 8]
  refine ⟨s, fun k => Nat.rec { s with gpr := s.gpr.set (7 : Reg) ⟨s.pc, true⟩ } next k, _, by decide, by decide, rfl,
    fun k hk => ?_, rfl⟩
  obtain rfl : k = 0 := by omega
  exact ⟨_, _, rfl, by decide, rfl⟩

/-- No Word before the terminator, for PUTSP. -/
theorem test_hyp_StringRoutinesFollowTheirReads_packed :
    ∃ (s : State) (w : Word) (t : State), s.gpr[(0 : Reg)] = ⟨0x4000#16, true⟩ ∧
      s.strRead (0x4000#16 + BitVec.ofNat 16 0) = (w, t) ∧ w.extractLsb' 0 8 ≠ 0x00#8 ∧
      w.extractLsb' 8 8 = 0x00#8 :=
  ⟨busy, 0x0041#16, busy, by decide, rfl, by decide, by decide⟩

theorem test_hyp_UnhandledTrapHalts :
    (0x00#8).toNat < 0x20 ∧ (0x1F#8).toNat < 0x20 ∧ 0x25 < (0x26#8).toNat ∧ 0x25 < (0xFF#8).toNat := by decide

theorem test_hyp_ExitCodes :
    Legal params ∧ ({ busy with engine := .halted (.invalidOpcode 0#16 0xD#4) } : State).params = params ∧
      ({ busy with engine := .halted (.unhandledTrap 0#16 0xFF#8) } : State).params = params ∧
      ({ busy with engine := .halted .aborted } : State).params = params :=
  ⟨test_hyp_Legal, rfl, rfl, rfl⟩

theorem test_hyp_LaunchOfOneImage :
    lastWord.fits = true ∧ lastWord.words[0]? = some 0xF025#16 ∧ (0xFFFE#16 : Word).toNat < lastWord.origin.toNat ∧
      (⟨0x3000#16, [1#16]⟩ : Image).fits = true ∧ 0x3000 + 1 ≤ (0x3001#16 : Word).toNat := by decide

theorem test_hyp_ImageFileIsBigEndian :
    parseImage [0x30#8, 0x00#8, 0xF0#8, 0x25#8] = .ok ⟨0x3000#16, [0xF025#16]⟩ ∧
      [0x30#8, 0x00#8, 0xF0#8, 0x25#8][2]? = some 0xF0#8 ∧ [0x30#8, 0x00#8, 0xF0#8, 0x25#8][3]? = some 0x25#8 :=
  ⟨rfl, rfl, rfl⟩

/-- Two images that overlap in the Word at 0x3001. -/
theorem test_hyp_LaterImageStays :
    Memory.wf [] = true ∧ (⟨0x3000#16, [1#16, 2#16]⟩ : Image).fits = true ∧
      (⟨0x3001#16, [3#16, 4#16]⟩ : Image).fits = true ∧ (0x3000#16 : Word).toNat + 0 < (0x3001#16 : Word).toNat ∧
      (0x2FFE#16 : Word).toNat + 2 ≤ (0x3000#16 : Word).toNat + 0 := by decide

theorem test_hyp_LoadErrorsRefuseTheLaunch :
    [0x30#8].length % 2 = 1 ∧ ([] : List Byte).length < 2 ∧
      ([0x30#8, 0x00#8].length % 2 = 0 ∧ 2 ≤ [0x30#8, 0x00#8].length) ∧
      65536 < (0xFFFF#16 : Word).toNat + [1#16, 2#16].length := by decide

/-! #### A memory with no zero Word -/

/-- A memory that lists `w` at each of the `n` addresses from `a` on. -/
def filled (w : Word) : Nat → Nat → Memory
  | _, 0 => []
  | a, n + 1 => (a, w) :: filled w (a + 1) n

theorem filled_read (w : Word) : ∀ n a b, a ≤ b → b < a + n → (filled w a n).read b = w
  | 0, a, b, h1, h2 => by omega
  | n + 1, a, b, h1, h2 => by
    rw [filled, Memory.read]
    split
    · rfl
    · exact filled_read w n (a + 1) b (by omega) (by omega)

/-- The memory of `test_hyp_EndlessStringNeverEnds` reads `0x4141` at every address. -/
theorem filled_memPeek (s : State) (h : s.mem = filled 0x4141#16 0 65536) (a : Word) : s.memPeek a = 0x4141#16 := by
  unfold State.memPeek
  rw [h]
  exact filled_read _ _ _ _ (Nat.zero_le _) (by have := a.isLt; omega)

theorem test_hyp_EndlessStringNeverEnds :
    ∃ s : State, s.engine = .running ∧ s.gpr[(0 : Reg)].written = true ∧ s.params.stringReadPolls = false ∧
      (∀ a, s.memPeek a ≠ 0x0000#16) ∧
      (∀ a, (s.memPeek a).extractLsb' 0 8 ≠ 0x00#8 ∧ (s.memPeek a).extractLsb' 8 8 ≠ 0x00#8) := by
  refine ⟨{ busy with mem := filled 0x4141#16 0 65536 }, rfl, rfl, rfl, fun a => ?_, fun a => ?_⟩
  · rw [filled_memPeek _ rfl a]; decide
  · rw [filled_memPeek _ rfl a]; decide

end Sys2Proof.Tests.Slice0
end

/-! PROOFS. The statements on encoding and decoding (spec/30_encoding.md), on the extensions (spec/00_scope.md R9), on the
condition codes (spec/10_state.md R36) and on the invalid opcodes (spec/45_reserved.md), with the lemmas they need. -/

namespace Sys2Proof

variable {m : OpcodeMap}

/-! ### Which rows of JMP and TRAP are well formed -/

theorem wellFormed_jmp {hi : BitVec 3} {base : Reg} {lo : BitVec 6} :
    (Instr.jmp hi base lo).wellFormed = true ↔ ¬(hi = 0#3 ∧ base = 7 ∧ lo = 0#6) := by
  simp [Instr.wellFormed, or_assoc, imp_iff_not_or]

theorem wellFormed_trap {u : BitVec 4} {vect : BitVec 8} :
    (Instr.trap u vect).wellFormed = true ↔
      vect ≠ 0x20#8 ∧ vect ≠ 0x21#8 ∧ vect ≠ 0x22#8 ∧ vect ≠ 0x23#8 ∧ vect ≠ 0x24#8 ∧ vect ≠ 0x25#8 := by
  simp [Instr.wellFormed, definedVector, and_assoc]

theorem decodeJmp_of_wellFormed {hi : BitVec 3} {base : Reg} {lo : BitVec 6}
    (h : (Instr.jmp hi base lo).wellFormed = true) : decodeJmp hi base lo = .jmp hi base lo :=
  if_neg (wellFormed_jmp.mp h)

theorem decodeTrap_of_wellFormed {u : BitVec 4} {vect : BitVec 8} (h : (Instr.trap u vect).wellFormed = true) :
    decodeTrap u vect = .trap u vect := by
  obtain ⟨h0, h1, h2, h3, h4, h5⟩ := wellFormed_trap.mp h
  simp only [decodeTrap, if_neg h0, if_neg h1, if_neg h2, if_neg h3, if_neg h4, if_neg h5]

theorem decodeJmp_wellFormed (hi : BitVec 3) (base : Reg) (lo : BitVec 6) :
    (decodeJmp hi base lo).wellFormed = true := by
  unfold decodeJmp
  split
  case isTrue => rfl
  case isFalse h => exact wellFormed_jmp.mpr h

theorem decodeTrap_wellFormed (u : BitVec 4) (vect : BitVec 8) : (decodeTrap u vect).wellFormed = true := by
  by_cases h : (Instr.trap u vect).wellFormed = true
  · rw [decodeTrap_of_wellFormed h, h]
  · unfold decodeTrap
    repeat' split
    case isFalse h0 h1 h2 h3 h4 h5 => exact wellFormed_trap.mpr ⟨h0, h1, h2, h3, h4, h5⟩
    all_goals rfl

/-- Settles O3: only the rows of TRAP and JMP have ill-formed terms, and those the decoder never answers. -/
theorem everyWordDecodesWellFormed : Obligations.EveryWordDecodesWellFormed := by
  intro m w
  rw [decode]
  cases opcodeOf m w
  case jmp => exact decodeJmp_wellFormed ..
  case trap => exact decodeTrap_wellFormed ..
  case add | and | jsr => dsimp only; split <;> rfl
  all_goals rfl

/-! ### Putting a Word together from its fields -/

/-- Two neighbouring fields of one Word, placed back where they were, are one field. -/
theorem place_extractLsb'_or (w : Word) {hi lo n k : Nat} (h : hi = lo + k) :
    place hi (w.extractLsb' hi n) ||| place lo (w.extractLsb' lo k) = place lo (w.extractLsb' lo (k + n)) := by
  subst h
  apply BitVec.eq_of_getLsbD_eq
  intro i hi
  simp only [BitVec.getLsbD_or, getLsbD_place, BitVec.getLsbD_extractLsb']
  by_cases hlow : i < lo + k <;> grind

/-- A field may take in the next bit above it where that bit is clear. -/
theorem place_extractLsb'_succ (w : Word) {lo n : Nat} (h : w.getLsbD (lo + n) = false) :
    place lo (w.extractLsb' lo n) = place lo (w.extractLsb' lo (n + 1)) := by
  apply BitVec.eq_of_getLsbD_eq
  intro i hi
  simp only [getLsbD_place, BitVec.getLsbD_extractLsb']
  grind

/-- All 16 bits placed at bit 0 are the Word. -/
@[simp] theorem place_zero_word (w : Word) : place 0 w = w := by
  simp [place]

/-- One bit of a Word as a field. -/
theorem ofBool_getLsbD (w : Word) (k : Nat) : BitVec.ofBool (w.getLsbD k) = w.extractLsb' k 1 := by
  apply BitVec.eq_of_getLsbD_eq
  intro i hi
  obtain rfl : i = 0 := by omega
  simp

/-- A bit that is set, as a field. -/
theorem one_eq_extractLsb' {w : Word} {k : Nat} (h : w.getLsbD k = true) : 1#1 = w.extractLsb' k 1 := by
  rw [← ofBool_getLsbD, h]
  rfl

/-- Settles O2: for each opcode the fields that the encoder places are neighbours and together the whole Word. -/
theorem encodeOfDecode : Obligations.EncodeOfDecode := by
  intro m w hm
  have hv : m.value (opcodeOf m w) = w.extractLsb' 12 4 := OpcodeMap.value_opcode hm _
  cases hop : opcodeOf m w <;> rw [hop] at hv
  case add | and =>
    simp only [decode, hop]
    split
    case isTrue h5 =>
      simp [encode, hv, one_eq_extractLsb' h5, place_extractLsb'_or]
    case isFalse h5 =>
      simp [encode, hv, place_extractLsb'_succ w (lo := 3) (n := 2) (by simpa using h5), place_extractLsb'_or]
  case jsr =>
    simp only [decode, hop]
    split
    case isTrue h11 =>
      simp [encode, hv, one_eq_extractLsb' h11, place_extractLsb'_or]
    case isFalse h11 =>
      simp [encode, hv, place_extractLsb'_succ w (lo := 9) (n := 2) (by simpa using h11), place_extractLsb'_or]
  case jmp => simp [decode, hop, encode_decodeJmp, hv, place_extractLsb'_or]
  case trap => simp [decode, hop, encode_decodeTrap, hv, place_extractLsb'_or]
  case br => simp [decode, hop, encode, hv, ofBool_getLsbD, place_extractLsb'_or, -BitVec.getLsbD_eq_getElem]
  all_goals simp [decode, hop, encode, hv, place_extractLsb'_or]

/-! ### Reading the fields of an encoding -/

/-- A legal map reads an encoding's opcode: the per-instruction family, over all instructions. -/
theorem opcodeOf_encode (hm : m.Legal) : ∀ i : Instr, opcodeOf m (encode m i) = Laws.EncodesOpcode.opcode i
  | .addReg .. => Laws.EncodesOpcode.addReg _ _ _ _ m hm
  | .addImm .. => Laws.EncodesOpcode.addImm _ _ _ m hm
  | .andReg .. => Laws.EncodesOpcode.andReg _ _ _ _ m hm
  | .andImm .. => Laws.EncodesOpcode.andImm _ _ _ m hm
  | .not .. => Laws.EncodesOpcode.not _ _ _ m hm
  | .br .. => Laws.EncodesOpcode.br _ _ _ _ m hm
  | .jmp .. => Laws.EncodesOpcode.jmp _ _ _ m hm
  | .ret => Laws.EncodesOpcode.ret m hm
  | .jsr .. => Laws.EncodesOpcode.jsr _ m hm
  | .jsrr .. => Laws.EncodesOpcode.jsrr _ _ _ m hm
  | .ld .. => Laws.EncodesOpcode.ld _ _ m hm
  | .ldi .. => Laws.EncodesOpcode.ldi _ _ m hm
  | .ldr .. => Laws.EncodesOpcode.ldr _ _ _ m hm
  | .lea .. => Laws.EncodesOpcode.lea _ _ m hm
  | .st .. => Laws.EncodesOpcode.st _ _ m hm
  | .sti .. => Laws.EncodesOpcode.sti _ _ m hm
  | .str .. => Laws.EncodesOpcode.str _ _ _ m hm
  | .trap .. => Laws.EncodesOpcode.trap _ _ m hm
  | .getc _ => Laws.EncodesOpcode.getc _ m hm
  | .out _ => Laws.EncodesOpcode.out _ m hm
  | .puts _ => Laws.EncodesOpcode.puts _ m hm
  | .inp _ => Laws.EncodesOpcode.inp _ m hm
  | .putsp _ => Laws.EncodesOpcode.putsp _ m hm
  | .halt _ => Laws.EncodesOpcode.halt _ m hm
  | .rti _ => Laws.EncodesOpcode.rti _ m hm
  | .res _ => Laws.EncodesOpcode.res _ m hm

theorem regField_or (v w : Word) (lo : Nat) :
    regField (v ||| w) lo = (v.extractLsb' lo 3 ||| w.extractLsb' lo 3).toFin := by
  rw [regField, BitVec.extractLsb'_or]

/-- Settles O1: the opcode is read by `opcodeOf_encode`, and each field is read where the encoder placed it. -/
theorem decodeOfEncode : Obligations.DecodeOfEncode := by
  intro m i hm hi
  rw [decode, opcodeOf_encode hm i]
  cases i
  case jmp => simp [Laws.EncodesOpcode.opcode, encode, regField_or, BitVec.extractLsb'_or, decodeJmp_of_wellFormed hi]
  case ret => simp [Laws.EncodesOpcode.opcode, encode, regField_or, BitVec.extractLsb'_or, decodeJmp]
  case trap => simp [Laws.EncodesOpcode.opcode, encode, BitVec.extractLsb'_or, decodeTrap_of_wellFormed hi]
  case getc | out | puts | inp | putsp | halt =>
    simp [Laws.EncodesOpcode.opcode, encode, BitVec.extractLsb'_or, decodeTrap]
  case addReg | addImm | andReg | andImm | jsr | jsrr | br =>
    simp [Laws.EncodesOpcode.opcode, encode, regField_or, BitVec.extractLsb'_or, getLsbD_place,
      -BitVec.getLsbD_eq_getElem]
  all_goals simp [Laws.EncodesOpcode.opcode, encode, regField_or, BitVec.extractLsb'_or]

/-! ### The fields of a Word written as a concatenation -/

/-- The opcode of a Word with `op` in bits 15:12 (R91). -/
theorem opcodeOf_append (m : OpcodeMap) (op : BitVec 4) (u : BitVec 12) : opcodeOf m (op ++ u) = m.opcode op := by
  rw [opcodeOf, BitVec.extractLsb'_append_eq_left]

/-- The 12 bits below the opcode. -/
theorem extractLsb'_append_low (op : BitVec 4) (u : BitVec 12) : (op ++ u : Word).extractLsb' 0 12 = u :=
  BitVec.extractLsb'_append_eq_right

end Sys2Proof

namespace Sys2Proof.Machine

/-! ### Extensions (spec/00_scope.md R9) -/

/-- Settles O6: a bit of the field is kept, a bit above it is the top bit, or zero for a byte. -/
theorem extensionBits : Obligations.ExtensionBits := by
  refine ⟨fun n v k _ _ hk => ?_, fun b k => ?_⟩
  · have hmsb : v.msb = v.getLsbD (n - 1) := BitVec.msb_eq_getLsbD_last v
    simp only [sext, BitVec.getLsbD_signExtend, hk, hmsb, decide_true, Bool.true_and]
  · by_cases hk : k < 8
    · simp [zext8, hk, Nat.lt_trans hk]
    · simp [zext8, hk, BitVec.getLsbD_of_ge b k (Nat.le_of_not_lt hk)]

/-! ### The condition codes (spec/10_state.md R36) and the branch (spec/41_control.md R140) -/

/-- Under legal parameters a flag is one bit, bit 1 for zero alone. -/
theorem condOf_of_legal {p : Params} (hp : Legal p) (v : Word) :
    (condOf p v = 0x0001#16 ∨ condOf p v = 0x0002#16 ∨ condOf p v = 0x0004#16) ∧
      (condOf p v = 0x0002#16 ↔ v = 0x0000#16) := by
  by_cases hv : v = 0x0000#16
  · subst hv
    have hz : condOf p 0x0000#16 = p.condZro := rfl
    simp [hz, hp.zro]
  · have hflag : condOf p v = p.condNeg ∨ condOf p v = p.condPos := by
      rw [condOf, if_neg hv]
      exact ite_eq_or_eq ..
    rcases hp.negPos with ⟨hneg, hpos⟩ | ⟨hneg, hpos⟩
    · rcases hflag with h | h <;> simp [h, hneg, hpos, hv]
    · rcases hflag with h | h <;> simp [h, hneg, hpos, hv]

/-- Settles O27, the flag's shape by `condOf_of_legal`. -/
theorem setCCStoresOneFlag : Obligations.SetCCStoresOneFlag :=
  ⟨fun _ _ => rfl, fun _ v hp => condOf_of_legal hp v, rfl, rfl, rfl⟩

/-! Each flag meets one bit of the mask: bit 2 n, bit 1 z, bit 0 p. -/

theorem branchTaken_four (n z p : Bool) : branchTaken n z p 0x0004#16 = n := by
  revert n z p; decide

theorem branchTaken_two (n z p : Bool) : branchTaken n z p 0x0002#16 = z := by
  revert n z p; decide

theorem branchTaken_one (n z p : Bool) : branchTaken n z p 0x0001#16 = p := by
  revert n z p; decide

theorem branchTaken_condOf (n z p : Bool) (q : Params) (v : Word) :
    branchTaken n z p (condOf q v) =
      if v.getLsbD 15 then branchTaken n z p q.condNeg
      else if v = 0x0000#16 then branchTaken n z p q.condZro else branchTaken n z p q.condPos := by
  rw [condOf, apply_ite (branchTaken n z p), apply_ite (branchTaken n z p)]

/-- The test after a `SetCC` where NEG is bit 2 (log 2). -/
theorem branchTaken_condOf_four {q : Params} (hq : Legal q) (hneg : q.condNeg = 0x0004#16) (n z p : Bool) (v : Word) :
    branchTaken n z p (condOf q v) = if v.getLsbD 15 then n else if v = 0x0000#16 then z else p := by
  have hpos : q.condPos = 0x0001#16 := by simpa [hneg] using hq.negPos
  rw [branchTaken_condOf, hneg, hq.zro, hpos, branchTaken_four, branchTaken_two, branchTaken_one]

/-- The test after a `SetCC` where NEG is bit 0. -/
theorem branchTaken_condOf_one {q : Params} (hq : Legal q) (hneg : q.condNeg = 0x0001#16) (n z p : Bool) (v : Word) :
    branchTaken n z p (condOf q v) = if v.getLsbD 15 then p else if v = 0x0000#16 then z else n := by
  have hpos : q.condPos = 0x0004#16 := by simpa [hneg] using hq.negPos
  rw [branchTaken_condOf, hneg, hq.zro, hpos, branchTaken_one, branchTaken_two, branchTaken_four]

/-- A mask of zero meets no flag. -/
theorem branchTaken_zero_mask (cond : Word) : branchTaken false false false cond = false := by
  simp [branchTaken, nzpMask]

/-- With COND set, BR moves the PC exactly when its mask meets COND. -/
theorem exec_br_of_written {s : State} (h : s.cond.written = true) (n z p : Bool) (off9 : BitVec 9) :
    exec (.br n z p off9) s =
      .next { s with pc := if branchTaken n z p s.cond.value = true then s.pc + sext off9 else s.pc } := by
  change execBr n z p off9 s = _
  cases hmask : n || z || p with
  | true =>
    rw [execBr, if_pos hmask, if_pos h]
    split <;> rfl
  | false =>
    obtain ⟨⟨rfl, rfl⟩, rfl⟩ : (n = false ∧ z = false) ∧ p = false := by simpa using hmask
    rw [branchTaken_zero_mask]
    rfl

/-- Settles O32: after a `SetCC` the mask meets COND exactly in the bit of the value's sign. -/
theorem branchFollowsTheSign : Obligations.BranchFollowsTheSign := by
  intro n z p off9 s v hp hc
  have hbr : ∀ n z p, exec (.br n z p off9) s = .next { s with
      pc := if branchTaken n z p (condOf s.params v) = true then s.pc + sext off9 else s.pc } := fun n z p => by
    rw [exec_br_of_written (by rw [hc]), hc]
  refine ⟨fun hneg => ?_, fun hneg => ?_, ?_⟩
  · rw [hbr, branchTaken_condOf_four hp hneg]
  · rw [hbr, branchTaken_condOf_one hp hneg]
  · have hfull : branchTaken true true true (condOf s.params v) = true := by
      rcases (condOf_of_legal hp v).1 with h | h | h <;> rw [h] <;> rfl
    rw [hbr, hfull, if_pos rfl]

/-! ### The invalid opcodes (spec/45_reserved.md R240, R241) -/

/-- Settles O54: bits 15:12 choose the row alone, and a legal map gives that opcode no other value. -/
theorem invalidOpcodesHalt : Obligations.InvalidOpcodesHalt := by
  refine ⟨fun u s => ⟨rfl, rfl⟩, fun m op u => ⟨fun h => ?_, fun h => ?_, fun hm h => ?_, fun hm h => ?_⟩, by decide⟩
  · simp [decode, opcodeOf_append, h, extractLsb'_append_low]
  · simp [decode, opcodeOf_append, h, extractLsb'_append_low]
  · rw [← h, OpcodeMap.value_opcode hm]
  · rw [← h, OpcodeMap.value_opcode hm]

end Sys2Proof.Machine

/-! PROOFS. What an instruction can do, said once over all 26 rows: the table facts, the frame of memory reads, and the
inversion lemma `exec_effect` that the statements on the state (spec/10_state.md) are read off. -/

namespace Sys2Proof

variable {i : Instr}

/-! ### Facts of the tables (spec/10_state.md R31, R37) -/

theorem Instr.gprWrites_of_flagDest {dr : Reg} (h : i.flagDest = some dr) : i.gprWrites = [dr] := by
  cases i <;> cases h <;> rfl

theorem Instr.flagDest_of_isTrap (h : i.isTrap = true) : i.flagDest = none := by
  cases i <;> cases h <;> rfl

theorem Instr.seven_mem_gprWrites_of_isTrap (h : i.isTrap = true) : 7 ∈ i.gprWrites := by
  cases i <;> cases h <;> exact List.mem_cons_self

/-! ### The well-formed instruction that does the same -/

/-- TRAP with one of the six vectors is its routine, and JMP of the Word 0xC1C0 is RET (R201, log 21). -/
def Instr.canonical : Instr → Instr
  | .jmp hi base lo => decodeJmp hi base lo
  | .trap u vect => decodeTrap u vect
  | i => i

theorem Instr.canonical_wellFormed (i : Instr) : i.canonical.wellFormed = true := by
  cases i
  case jmp => exact decodeJmp_wellFormed ..
  case trap => exact decodeTrap_wellFormed ..
  all_goals rfl

theorem isTrap_decodeTrap (u : BitVec 4) (vect : BitVec 8) : (decodeTrap u vect).isTrap = true := by
  unfold decodeTrap
  repeat' split
  all_goals rfl

/-- What is the same for RET and for JMP with base R7 is the same for JMP's well-formed form. -/
theorem decodeJmp_congr {α : Sort*} (f : Instr → α) {hi : BitVec 3} {base : Reg} {lo : BitVec 6}
    (h : base = 7 → f .ret = f (.jmp hi base lo)) : f (decodeJmp hi base lo) = f (.jmp hi base lo) := by
  unfold decodeJmp
  split
  next hret =>
    obtain ⟨-, hbase, -⟩ := hret
    exact h hbase
  next => rfl

@[simp] theorem Instr.flagDest_canonical (i : Instr) : i.canonical.flagDest = i.flagDest := by
  cases i
  case jmp => exact decodeJmp_congr _ fun _ => rfl
  case trap => exact Instr.flagDest_of_isTrap (isTrap_decodeTrap ..)
  all_goals rfl

namespace Machine

/-- The PC that an instruction leaves where the machine runs on (spec/10_state.md R35). -/
def nextPc (i : Instr) (s : State) : Word :=
  match i with
  | .br n z p off9 => if branchTaken n z p s.cond.value then pcRel9 s.pc off9 else s.pc
  | .jmp _ base _ => s.gpr[base].value
  | .ret => s.gpr[(7 : Reg)].value
  | .jsr off11 => pcRel11 s.pc off11
  | .jsrr _ base _ => if base = 7 then s.pc else s.gpr[base].value
  | _ => s.pc

variable {s t u b : State}

theorem nextPc_of_flagDest {dr : Reg} (h : i.flagDest = some dr) : nextPc i s = s.pc := by
  cases i <;> cases h <;> rfl

theorem nextPc_of_isTrap (h : i.isTrap = true) : nextPc i s = s.pc := by
  cases i <;> cases h <;> rfl

@[simp] theorem nextPc_canonical (i : Instr) (s : State) : nextPc i.canonical s = nextPc i s := by
  cases i
  case jmp => exact decodeJmp_congr (nextPc · s) fun h => by subst h; rfl
  case trap => exact nextPc_of_isTrap (isTrap_decodeTrap ..)
  all_goals rfl

/-- R7 is written before the base is read, so with base R7 JSRR goes to the address it links (R143). -/
theorem nextPc_jsrr (hi : BitVec 2) (base : Reg) (lo : BitVec 6) (s : State) :
    nextPc (.jsrr hi base lo) s = s.link.gpr[base].value := by
  by_cases h : base = 7
  · subst h; rw [State.link_gpr_seven]; rfl
  · rw [State.link_gpr_of_ne h, nextPc, if_neg h]

@[simp] theorem exec_canonical (i : Instr) (s : State) : exec i.canonical s = exec i s := by
  cases i
  case jmp => exact decodeJmp_congr (exec · s) fun h => by subst h; rfl
  case trap u vect =>
    rw [Instr.canonical, decodeTrap]
    repeat' split
    case isFalse => rfl
    all_goals subst vect; rfl
  all_goals rfl

/-! ### Memory reads -/

/-- What reads of memory, polls among them, leave (spec/20_memory.md R62, R65, R73): the registers, the PC, COND, the
engine, the signal, the parameters, the phase, what was put and delivered, every Word but KBSR and KBDR. -/
structure ReadFrame (s t : State) : Prop where
  core : SameCore s t
  phase : t.phase = s.phase
  wf : s.mem.wf = true → t.mem.wf = true
  memPeek : ∀ a, a ≠ s.params.kbsrAddr → a ≠ s.params.kbdrAddr → t.memPeek a = s.memPeek a
  output : t.console.output = s.console.output
  delivered : t.console.delivered = s.console.delivered
  input : t.console.input <:+ s.console.input

theorem ReadFrame.refl (s : State) : ReadFrame s s :=
  ⟨SameCore.refl s, rfl, id, fun _ _ _ => rfl, rfl, rfl, List.suffix_refl _⟩

theorem ReadFrame.trans (h : ReadFrame s t) (k : ReadFrame t u) : ReadFrame s u where
  core := h.core.trans k.core
  phase := k.phase.trans h.phase
  wf hs := k.wf (h.wf hs)
  memPeek a h1 h2 := (k.memPeek a (h.core.params ▸ h1) (h.core.params ▸ h2)).trans (h.memPeek a h1 h2)
  output := k.output.trans h.output
  delivered := k.delivered.trans h.delivered
  input := k.input.trans h.input

theorem ReadFrame.touch (s : State) (a : Word) : ReadFrame s (s.touch a) :=
  ⟨SameCore.touch s a, s.touch_phase a, s.touch_wf a, fun _ => s.touch_memPeek a, s.touch_output a, s.touch_delivered a,
    s.touch_input a⟩

/-! ### The end of a step's part of a string scan (R204, R206, R213) -/

/-- A scan from `s` has met its terminator and flushed, or is a cycle in progress. -/
inductive ScanEnd (s : State) : State → Prop
  | ended {u : State} (hu : ScanFrame s u) : ScanEnd s (u.setPhase .idle).flush
  | going {u : State} {w : Phase} (hu : ScanFrame s u) (hw : w.scanning = true) : ScanEnd s (u.setPhase w)

theorem ScanEnd.core (h : ScanEnd s t) : SameCore s t := by
  cases h with
  | ended hu => exact hu.core.trans ((SameCore.setPhase _ _).trans (.flush _))
  | going hu => exact hu.core.trans (.setPhase _ _)

theorem ScanEnd.putsFrom (s : State) (p : Word) : ScanEnd s (s.putsFrom p) := by
  rcases s.putsFrom_cases p with ⟨u, -, hu, h⟩ | ⟨q, u, -, hu, h⟩ <;> rw [h]
  · exact .ended hu
  · exact .going hu rfl

theorem ScanEnd.putspFrom (s : State) (p : Word) : ScanEnd s (s.putspFrom p) := by
  rcases s.putspFrom_cases p with ⟨u, -, hu, h⟩ | ⟨q, u, -, hu, h⟩ <;> rw [h]
  · exact .ended hu
  · exact .going hu rfl

/-! ### What an instruction can do -/

/-- What may come before the last act of an instruction: nothing, the link in R7 (R142, R143, R200), or a trap's link
with its output delivered (R212). -/
inductive Prepared (i : Instr) (s : State) : State → Prop
  | unchanged : Prepared i s s
  | linked (h : 7 ∈ i.gprWrites) : Prepared i s s.link
  | delivered (h : i.isTrap = true) (bs : List Byte) : Prepared i s (s.link.put bs).flush

theorem Prepared.frame (h : Prepared i s b) :
    b.pc = s.pc ∧ b.cond = s.cond ∧ b.mem = s.mem ∧ b.engine = s.engine ∧ b.phase = s.phase ∧ b.params = s.params ∧
      b.abortSignal = s.abortSignal := by
  cases h <;> exact ⟨rfl, rfl, rfl, rfl, rfl, rfl, rfl⟩

theorem Prepared.gpr (h : Prepared i s b) {r : Reg} (hr : r ∉ i.gprWrites) : b.gpr[r] = s.gpr[r] := by
  cases h with
  | unchanged => rfl
  | linked h => exact State.link_gpr_of_ne fun e => hr (e ▸ h)
  | delivered h => exact State.link_gpr_of_ne fun e => hr (e ▸ Instr.seven_mem_gprWrites_of_isTrap h)

theorem Prepared.console (h : Prepared i s b) (hi : i.isTrap = false) : b.console = s.console := by
  cases h with
  | unchanged | linked => rfl
  | delivered h => exact absurd (h.symm.trans hi) (by decide)

/-- All that an instruction can do to the state after the fetch. -/
inductive Effect (i : Instr) (s : State) : State → Prop
  /-- the result of a flag setter, after the reads of its data (R37) -/
  | result {dr : Reg} {u : State} {v : Word} (hdr : i.flagDest = some dr) (hu : ReadFrame s u)
      (hn : i.noDataAccess = true → u = s) : Effect i s (u.writeResult dr v)
  /-- a control transfer (R35) -/
  | jump {b : State} (hf : i.flagDest = none) (hi : i.isTrap = false) (hb : Prepared i s b) :
      Effect i s (b.setPc (nextPc i s))
  /-- a store, after the read of its pointer -/
  | store {u : State} {a v : Word} (hf : i.flagDest = none) (hi : i.isTrap = false) (hn : i.noDataAccess = false)
      (hpc : nextPc i s = s.pc) (hu : ReadFrame s u) : Effect i s (u.memWrite a v)
  /-- the fault of a listed register (R33) -/
  | unwritten {b : State} {r : Reg} (hb : Prepared i s b) (hr : r ∈ i.gprReads) (hw : s.gpr[r].written = false) :
      Effect i s (b.unwrittenFault r)
  /-- the fault of a BR (R39) -/
  | unsetCond (hc : s.cond.written = false) : Effect i s (s.enter (.faulted .unsetCond s.instrAddr))
  /-- a halt (R41) -/
  | halted {b : State} {reason : HaltReason} (hb : Prepared i s b) : Effect i s (b.enter (.halted reason))
  /-- a trap that ends with its output -/
  | output {b : State} (hi : i.isTrap = true) (hb : Prepared i s b) : Effect i s b
  /-- a trap that takes a byte into R0 (R202, R205) -/
  | input {b : State} {echo : Bool} {wait : Phase} (hi : i.isTrap = true) (h0 : 0 ∈ i.gprWrites)
      (hwait : wait.scanning = false) (hb : Prepared i s b) : Effect i s (b.takeInput echo wait)
  /-- a string routine (R204, R206) -/
  | scan {t : State} (hi : i.isTrap = true) (hn : i.noDataAccess = false) (ht : ScanEnd s.link t) : Effect i s t

/-- An instruction without a data access that gives a result or faults on a source. -/
theorem Effect.of_operate {dr : Reg} (hdr : i.flagDest = some dr)
    (h : (∃ v, t = s.writeResult dr v) ∨
      ∃ r, r ∈ i.gprReads ∧ s.gpr[r].written = false ∧ t = s.unwrittenFault r) : Effect i s t := by
  rcases h with ⟨v, rfl⟩ | ⟨r, hr, hw, rfl⟩
  · exact .result hdr (.refl s) fun _ => rfl
  · exact .unwritten .unchanged hr hw

/-- Of the traps only the well-formed ones have the registers listed for them (R31). -/
theorem exec_effect_of_wellFormed (hi : i.isTrap = true → i.wellFormed = true) (h : exec i s = .next t) : Effect i s t := by
  cases i
  case addReg => exact .of_operate rfl (execAddReg_inv h)
  case andReg => exact .of_operate rfl (execAndReg_inv h)
  case addImm => exact .of_operate rfl ((execAddImm_inv h).imp_right fun h => ⟨_, List.mem_cons_self, h⟩)
  case andImm => exact .of_operate rfl ((execAndImm_inv h).imp_right fun h => ⟨_, List.mem_cons_self, h⟩)
  case not => exact .of_operate rfl ((execNot_inv h).imp_right fun h => ⟨_, List.mem_cons_self, h⟩)
  case lea => exact .of_operate rfl (.inl ⟨_, execLea_inv h⟩)
  case br =>
    rcases execBr_inv h with rfl | ⟨-, hc, rfl⟩
    · exact .jump rfl rfl .unchanged
    · exact .unsetCond hc
  case jmp =>
    rcases execJmp_inv h with rfl | ⟨hw, rfl⟩
    · exact .jump rfl rfl .unchanged
    · exact .unwritten .unchanged List.mem_cons_self hw
  case ret =>
    rcases execRet_inv h with rfl | ⟨hw, rfl⟩
    · exact .jump rfl rfl .unchanged
    · exact .unwritten .unchanged List.mem_cons_self hw
  case jsr =>
    rw [execJsr_inv h]
    exact .jump rfl rfl (.linked List.mem_cons_self)
  case jsrr hi' base lo =>
    rcases execJsrr_inv h with rfl | ⟨-, hw, rfl⟩
    · rw [← nextPc_jsrr hi' base lo]
      exact .jump rfl rfl (.linked List.mem_cons_self)
    · exact .unwritten (.linked List.mem_cons_self) List.mem_cons_self hw
  case ld =>
    rw [execLd_inv h]
    exact .result rfl (.touch s _) nofun
  case ldi =>
    rw [execLdi_inv h]
    exact .result rfl ((ReadFrame.touch s _).trans (.touch _ _)) nofun
  case ldr =>
    rcases execLdr_inv h with rfl | ⟨hw, rfl⟩
    · exact .result rfl (.touch s _) nofun
    · exact .unwritten .unchanged List.mem_cons_self hw
  case st =>
    rcases execSt_inv h with rfl | ⟨hw, rfl⟩
    · exact .store rfl rfl rfl rfl (.refl s)
    · exact .unwritten .unchanged List.mem_cons_self hw
  case sti =>
    rcases execSti_inv h with rfl | ⟨hw, rfl⟩
    · exact .store rfl rfl rfl rfl (.touch s _)
    · exact .unwritten .unchanged List.mem_cons_self hw
  case str =>
    rcases execStr_inv h with rfl | ⟨r, hr, hw, rfl⟩
    · exact .store rfl rfl rfl rfl (.refl s)
    · exact .unwritten .unchanged hr hw
  case trap =>
    rw [execTrap_inv (by simpa [Instr.wellFormed] using hi rfl) h]
    exact .halted (.linked List.mem_cons_self)
  case getc =>
    rw [execGetc_inv h]
    exact .input rfl (List.mem_cons_of_mem _ List.mem_cons_self) rfl (.linked List.mem_cons_self)
  case inp =>
    rw [execInp_inv h]
    exact .input rfl (List.mem_cons_of_mem _ List.mem_cons_self) rfl (.delivered rfl _)
  case out =>
    rcases execOut_inv h with rfl | ⟨hw, rfl⟩
    · exact .output rfl (.delivered rfl _)
    · exact .unwritten (.linked List.mem_cons_self) List.mem_cons_self hw
  case puts =>
    rcases execPuts_inv h with rfl | ⟨hw, rfl⟩
    · exact .scan rfl rfl (.putsFrom ..)
    · exact .unwritten (.linked List.mem_cons_self) List.mem_cons_self hw
  case putsp =>
    rcases execPutsp_inv h with rfl | ⟨hw, rfl⟩
    · exact .scan rfl rfl (.putspFrom ..)
    · exact .unwritten (.linked List.mem_cons_self) List.mem_cons_self hw
  case halt =>
    rw [execHalt_inv h]
    exact .halted (.delivered rfl _)
  case rti =>
    rw [execRti_inv h]
    exact .halted .unchanged
  case res =>
    rw [execRes_inv h]
    exact .halted .unchanged

/-- Every instruction has one of the effects of its well-formed form. -/
theorem exec_effect (h : exec i s = .next t) : Effect i.canonical s t :=
  exec_effect_of_wellFormed (fun _ => i.canonical_wellFormed) (by rwa [exec_canonical])

end Machine

end Sys2Proof

/-! PROOFS. The statements on the state over every instruction and every step (spec/10_state.md), read off `exec_effect` and
`step_cases`. -/

namespace Sys2Proof.Machine

variable {i : Instr} {s t u b : State}

/-! ### Registers, COND and the PC -/

theorem Effect.gpr (h : Effect i s t) {r : Reg} (hr : r ∉ i.gprWrites) : t.gpr[r] = s.gpr[r] := by
  cases h with
  | result hdr hu =>
    rw [Instr.gprWrites_of_flagDest hdr, List.mem_singleton] at hr
    exact (gpr_set_of_ne _ _ hr).trans (by rw [hu.core.gpr])
  | store _ _ _ _ hu => rw [State.memWrite_gpr, hu.core.gpr]
  | unsetCond => rfl
  | jump _ _ hb | unwritten hb | halted hb | output _ hb => exact hb.gpr hr
  | @input b echo wait _ h0 _ hb =>
    obtain ⟨-, -, -, -, -, -, hgpr⟩ := b.takeInput_frame echo wait
    exact (hgpr r fun e => hr (e ▸ h0)).trans (hb.gpr hr)
  | scan hi _ ht =>
    have hlink : s.link.gpr[r] = s.gpr[r] :=
      State.link_gpr_of_ne fun e => hr (e ▸ Instr.seven_mem_gprWrites_of_isTrap hi)
    exact (congrArg (·[r]) ht.core.gpr).trans hlink

/-- Settles O13, by the registers that each effect leaves. -/
theorem onlyListedRegistersAreWritten : Obligations.OnlyListedRegistersAreWritten :=
  fun _ _ _ _ hi h hr => (exec_effect_of_wellFormed (fun _ => hi) h).gpr hr

/-- A result sets COND from the destination's new value; every other effect leaves COND, and is a stop or no flag
setter's. -/
theorem Effect.cond (h : Effect i s t) :
    (∃ dr, i.flagDest = some dr ∧ t.engine = s.engine ∧ t.cond = ⟨condOf s.params t.gpr[dr].value, true⟩) ∨
      (t.cond = s.cond ∧ (i.flagDest = none ∨ t.engine ≠ .running)) := by
  cases h with
  | @result dr u v hdr hu =>
    refine .inl ⟨dr, hdr, hu.core.engine, ?_⟩
    rw [State.writeResult_gpr, gpr_set_self, State.writeResult_cond, hu.core.params]
  | store hf _ _ _ hu => exact .inr ⟨hu.core.cond, .inl hf⟩
  | unsetCond => exact .inr ⟨rfl, .inr nofun⟩
  | jump hf _ hb =>
    obtain ⟨-, hcond, -⟩ := hb.frame
    exact .inr ⟨hcond, .inl hf⟩
  | unwritten hb | halted hb =>
    obtain ⟨-, hcond, -⟩ := hb.frame
    exact .inr ⟨hcond, .inr nofun⟩
  | output hi hb =>
    obtain ⟨-, hcond, -⟩ := hb.frame
    exact .inr ⟨hcond, .inl (Instr.flagDest_of_isTrap hi)⟩
  | @input b echo wait hi _ _ hb =>
    obtain ⟨-, hb, -⟩ := hb.frame
    obtain ⟨-, hcond, -⟩ := b.takeInput_frame echo wait
    exact .inr ⟨hcond.trans hb, .inl (Instr.flagDest_of_isTrap hi)⟩
  | scan hi _ ht => exact .inr ⟨ht.core.cond, .inl (Instr.flagDest_of_isTrap hi)⟩

/-- Settles O12: only a result writes COND, and it does so from the value it leaves in the destination. -/
theorem condIsWrittenByFlagSettersOnly : Obligations.CondIsWrittenByFlagSettersOnly := by
  intro i s t he h
  have heff := (exec_effect h).cond
  simp only [Instr.flagDest_canonical] at heff
  rcases heff with ⟨dr, hdr, hte, hcond⟩ | ⟨hcond, hor⟩
  · refine ⟨fun dr' hdr' _ => ?_, fun hor => ?_⟩
    · obtain rfl : dr = dr' := Option.some.inj (hdr.symm.trans hdr')
      exact hcond
    · rcases hor with hf | hstop
      · exact absurd (hdr.symm.trans hf) nofun
      · exact absurd (hte.trans he) hstop
  · refine ⟨fun dr hdr hrun => ?_, fun _ => hcond⟩
    rcases hor with hf | hstop
    · exact absurd (hf.symm.trans hdr) nofun
    · exact absurd hrun hstop

theorem Effect.pc (h : Effect i s t) : (t.pc = nextPc i s ∧ t.engine = s.engine) ∨ (t.pc = s.pc ∧ t.engine ≠ .running) := by
  cases h with
  | result hdr hu => exact .inl ⟨hu.core.pc.trans (nextPc_of_flagDest hdr).symm, hu.core.engine⟩
  | store _ _ _ hpc hu => exact .inl ⟨hu.core.pc.trans hpc.symm, hu.core.engine⟩
  | unsetCond => exact .inr ⟨rfl, nofun⟩
  | jump _ _ hb =>
    obtain ⟨-, -, -, hengine, -⟩ := hb.frame
    exact .inl ⟨rfl, hengine⟩
  | unwritten hb | halted hb =>
    obtain ⟨hpc, -⟩ := hb.frame
    exact .inr ⟨hpc, nofun⟩
  | output hi hb =>
    obtain ⟨hpc, -, -, hengine, -⟩ := hb.frame
    exact .inl ⟨hpc.trans (nextPc_of_isTrap hi).symm, hengine⟩
  | @input b echo wait hi _ _ hb =>
    obtain ⟨hbpc, -, -, hbengine, -⟩ := hb.frame
    obtain ⟨hpc, -, -, hengine, -⟩ := b.takeInput_frame echo wait
    exact .inl ⟨(hpc.trans hbpc).trans (nextPc_of_isTrap hi).symm, hengine.trans hbengine⟩
  | scan hi _ ht => exact .inl ⟨ht.core.pc.trans (nextPc_of_isTrap (s := s) hi).symm, ht.core.engine⟩

/-- Settles O15: an instruction that runs on leaves `nextPc`, one that stops leaves the PC. -/
theorem pcAfterEachInstruction : Obligations.PcAfterEachInstruction := by
  intro i s t he h
  rcases (exec_effect h).pc with ⟨hpc, hengine⟩ | ⟨hpc, hstop⟩
  · rw [nextPc_canonical] at hpc
    refine ⟨fun hstop => absurd (hengine.trans he) hstop, fun _ => hpc.trans ?_⟩
    cases i <;> rfl
  · exact ⟨fun _ => hpc, fun hrun => absurd hrun hstop⟩

/-! ### What every step keeps: the marks, the parameters, the signal, the order of the streams -/

/-- From `s` to `t` no written mark is lost (R33, R39), the parameters and the signal stay, output is only appended and
input only taken from the front (R47, R48). -/
structure Kept (s t : State) : Prop where
  gpr : ∀ r : Reg, s.gpr[r].written = true → t.gpr[r].written = true
  cond : s.cond.written = true → t.cond.written = true
  params : t.params = s.params
  abortSignal : t.abortSignal = s.abortSignal
  output : s.console.output <+: t.console.output
  input : t.console.input <:+ s.console.input

theorem Kept.trans (h : Kept s t) (k : Kept t u) : Kept s u where
  gpr r hr := k.gpr r (h.gpr r hr)
  cond hc := k.cond (h.cond hc)
  params := k.params.trans h.params
  abortSignal := k.abortSignal.trans h.abortSignal
  output := h.output.trans k.output
  input := k.input.trans h.input

theorem SameCore.kept (h : SameCore s t) (ho : s.console.output <+: t.console.output)
    (hi : t.console.input <:+ s.console.input) : Kept s t where
  gpr r hr := by rwa [h.gpr]
  cond hc := by rwa [h.cond]
  params := h.params
  abortSignal := h.abortSignal
  output := ho
  input := hi

theorem Kept.refl (s : State) : Kept s s := (SameCore.refl s).kept (List.prefix_refl _) (List.suffix_refl _)

theorem Kept.enter (s : State) (e : Engine) : Kept s (s.enter e) :=
  ⟨fun _ => id, id, rfl, rfl, List.prefix_refl _, List.suffix_refl _⟩

theorem Kept.setPc (s : State) (a : Word) : Kept s (s.setPc a) :=
  ⟨fun _ => id, id, rfl, rfl, List.prefix_refl _, List.suffix_refl _⟩

theorem Kept.memWrite (s : State) (a v : Word) : Kept s (s.memWrite a v) :=
  ⟨fun _ => id, id, rfl, rfl, List.prefix_refl _, List.suffix_refl _⟩

theorem Kept.setPhase (s : State) (w : Phase) : Kept s (s.setPhase w) :=
  (SameCore.setPhase s w).kept (List.prefix_refl _) (List.suffix_refl _)

theorem Kept.put (s : State) (bs : List Byte) : Kept s (s.put bs) :=
  (SameCore.put s bs).kept (List.prefix_append _ _) (List.suffix_refl _)

theorem Kept.flush (s : State) : Kept s s.flush := (SameCore.flush s).kept (List.prefix_refl _) (List.suffix_refl _)

theorem Kept.writeReg (s : State) (i : Reg) (v : Word) : Kept s (s.writeReg i v) where
  gpr r hr := by
    by_cases h : r = i
    · rw [h, State.writeReg_gpr, gpr_set_self]
    · rwa [State.writeReg_gpr, gpr_set_of_ne _ _ h]
  cond := id
  params := rfl
  abortSignal := rfl
  output := List.prefix_refl _
  input := List.suffix_refl _

theorem Kept.setCC (s : State) (v : Word) : Kept s (s.setCC v) :=
  ⟨fun _ => id, fun _ => rfl, rfl, rfl, List.prefix_refl _, List.suffix_refl _⟩

theorem ReadFrame.kept (h : ReadFrame s t) : Kept s t := h.core.kept (h.output ▸ List.prefix_refl _) h.input

theorem ScanFrame.kept (h : ScanFrame s t) : Kept s t := h.core.kept h.output h.input

theorem ScanEnd.kept (h : ScanEnd s t) : Kept s t := by
  cases h with
  | ended hu => exact hu.kept.trans ((Kept.setPhase _ _).trans (.flush _))
  | going hu => exact hu.kept.trans (.setPhase _ _)

theorem Kept.takeInput (s : State) (echo : Bool) (wait : Phase) : Kept s (s.takeInput echo wait) := by
  rcases s.takeInput_cases echo wait with ⟨b, rest, hin, h⟩ | ⟨-, -, h⟩ | ⟨-, -, h⟩ <;> rw [h]
  · have htaken : Kept s ((s.withConsole { s.console with input := rest }).setPhase .idle) :=
      ((SameCore.withConsole s _).trans (.setPhase _ _)).kept (List.prefix_refl _) (hin ▸ List.suffix_cons b rest)
    cases echo with
    | false => exact htaken.trans (.writeReg _ _ _)
    | true => exact htaken.trans ((Kept.put _ _).trans ((Kept.flush _).trans (.writeReg _ _ _)))
  · exact (Kept.setPhase _ _).trans (.writeReg _ _ _)
  · exact .setPhase _ _

theorem Prepared.kept (h : Prepared i s b) : Kept s b := by
  cases h with
  | unchanged => exact .refl s
  | linked => exact .writeReg s 7 s.pc
  | delivered => exact (Kept.writeReg s 7 s.pc).trans ((Kept.put _ _).trans (.flush _))

theorem Effect.kept (h : Effect i s t) : Kept s t := by
  cases h with
  | result _ hu => exact hu.kept.trans ((Kept.writeReg _ _ _).trans (.setCC _ _))
  | store _ _ _ _ hu => exact hu.kept.trans (.memWrite _ _ _)
  | unsetCond => exact .enter _ _
  | jump _ _ hb => exact hb.kept.trans (.setPc _ _)
  | unwritten hb | halted hb => exact hb.kept.trans (.enter _ _)
  | output _ hb => exact hb.kept
  | input _ _ _ hb => exact hb.kept.trans (.takeInput _ _ _)
  | scan _ _ ht => exact (Kept.writeReg s 7 s.pc).trans ht.kept

theorem Kept.fetch (s : State) : Kept s s.fetch.2 := (ReadFrame.touch s s.pc).kept.trans (.setPc _ _)

theorem step_kept (h : step s = .next t) : Kept s t := by
  obtain ⟨-, ⟨-, -, rfl⟩ | ⟨-, -, -, rfl⟩ | ⟨-, -, -, hexec⟩ | ⟨-, -, rfl⟩ | ⟨-, -, rfl⟩ | ⟨p, -, rfl⟩ | ⟨p, -, rfl⟩⟩ :=
    step_cases h
  · exact (Kept.setPhase _ _).trans (.enter _ _)
  · exact (Kept.fetch s).trans (.enter _ _)
  · exact (Kept.fetch s).trans (exec_effect hexec).kept
  · exact .takeInput _ _ _
  · exact .takeInput _ _ _
  · exact (ScanEnd.putsFrom s p).kept
  · exact (ScanEnd.putspFrom s p).kept

/-- Settles O16, by `step_kept`. -/
theorem writtenMarksPersist : Obligations.WrittenMarksPersist :=
  fun _ _ h => ⟨(step_kept h).gpr, (step_kept h).cond, (step_kept h).params, (step_kept h).abortSignal⟩

/-- Settles O17, by `step_kept`. -/
theorem consoleStreamsKeepOrder : Obligations.ConsoleStreamsKeepOrder :=
  fun _ _ h => ⟨(step_kept h).output, (step_kept h).input⟩

/-! ### The invariant -/

theorem State.Inv.enter (h : s.Inv) (hp : s.phase = .idle) (e : Engine) : (s.enter e).Inv :=
  { h with stopped := fun _ => hp }

theorem State.Inv.setPc (h : s.Inv) (a : Word) : (s.setPc a).Inv := { h with }

theorem State.Inv.writeReg (h : s.Inv) (i : Reg) (v : Word) : (s.writeReg i v).Inv := { h with }

theorem State.Inv.setCC (h : s.Inv) (v : Word) : (s.setCC v).Inv :=
  { h with cond := fun _ => condOf_legal s.params v }

theorem State.Inv.memWrite (h : s.Inv) (a v : Word) : (s.memWrite a v).Inv :=
  { h with memory := Memory.wf_write_word h.memory a v }

/-- Output that is delivered at once. -/
theorem State.Inv.put_flush (h : s.Inv) (bs : List Byte) : (s.put bs).flush.Inv :=
  { h with delivered := Nat.le_refl _, flushed := fun _ => rfl }

theorem State.Inv.cond_of_sameCore (h : s.Inv) (hu : SameCore s u) (hc : u.cond.written = true) :
    u.cond.value = u.params.condNeg ∨ u.cond.value = u.params.condZro ∨ u.cond.value = u.params.condPos := by
  rw [hu.cond] at hc ⊢
  rw [hu.params]
  exact h.cond hc

theorem State.Inv.of_readFrame (h : s.Inv) (hu : ReadFrame s u) : u.Inv where
  memory := hu.wf h.memory
  cond := h.cond_of_sameCore hu.core
  delivered := by rw [hu.delivered, hu.output]; exact h.delivered
  flushed hp := by rw [hu.delivered, hu.output]; exact h.flushed (hu.phase ▸ hp)
  stopped he := hu.phase.trans (h.stopped (hu.core.engine ▸ he))
  params := hu.core.params ▸ h.params

theorem State.Inv.fetch (h : s.Inv) : s.fetch.2.Inv := (h.of_readFrame (.touch s s.pc)).setPc _

/-- A running machine between cycles or in a console wait may enter any phase but a string scan's. -/
theorem State.Inv.setPhase (h : s.Inv) (he : s.engine = .running) (hp : s.phase.scanning = false) (w : Phase) :
    (s.setPhase w).Inv :=
  { h with flushed := fun _ => h.flushed hp, stopped := fun hn => absurd he hn }

theorem State.Inv.takeInput (h : s.Inv) (he : s.engine = .running) (hp : s.phase.scanning = false) (echo : Bool)
    (wait : Phase) : (s.takeInput echo wait).Inv := by
  rcases s.takeInput_cases echo wait with ⟨b, rest, -, h'⟩ | ⟨-, -, h'⟩ | ⟨-, -, h'⟩ <;> rw [h']
  · have htaken : ((s.withConsole { s.console with input := rest }).setPhase .idle).Inv := { h.setPhase he hp .idle with }
    cases echo with
    | false => exact htaken.writeReg _ _
    | true => exact (htaken.put_flush _).writeReg _ _
  · exact (h.setPhase he hp .idle).writeReg _ _
  · exact h.setPhase he hp wait

/-- A scan that has ended has flushed; one in progress need not have. -/
theorem State.Inv.scanEnd (h : s.Inv) (he : s.engine = .running) (ht : ScanEnd s t) : t.Inv := by
  have hcond := h.cond_of_sameCore ht.core
  have hparams : Legal t.params := ht.core.params ▸ h.params
  cases ht with
  | ended hu => exact ⟨hu.wf h.memory, hcond, Nat.le_refl _, fun _ => rfl, fun _ => rfl, hparams⟩
  | going hu hw =>
    have hdelivered := hu.delivered ▸ h.delivered.trans hu.output.length_le
    exact ⟨hu.wf h.memory, hcond, hdelivered, fun hp => absurd (hw.symm.trans hp) nofun,
      fun hn => absurd (hu.core.engine.trans he) hn, hparams⟩

theorem Prepared.inv (hb : Prepared i s b) (h : s.Inv) : b.Inv := by
  cases hb with
  | unchanged => exact h
  | linked => exact h.writeReg _ _
  | delivered => exact (h.writeReg _ _).put_flush _

theorem Effect.inv (ht : Effect i s t) (h : s.Inv) (he : s.engine = .running) (hp : s.phase = .idle) : t.Inv := by
  cases ht with
  | result _ hu => exact ((h.of_readFrame hu).writeReg _ _).setCC _
  | store _ _ _ _ hu => exact (h.of_readFrame hu).memWrite _ _
  | unsetCond => exact h.enter hp _
  | jump _ _ hb => exact (hb.inv h).setPc _
  | unwritten hb | halted hb =>
    obtain ⟨-, -, -, -, hphase, -⟩ := hb.frame
    exact (hb.inv h).enter (hphase.trans hp) _
  | output _ hb => exact hb.inv h
  | input _ _ _ hb =>
    obtain ⟨-, -, -, hengine, hphase, -⟩ := hb.frame
    exact (hb.inv h).takeInput (hengine.trans he) (by rw [hphase, hp]; rfl) _ _
  | scan _ _ ht => exact (h.writeReg 7 s.pc).scanEnd he ht

/-- Settles O18: each part of a step keeps the invariant. -/
theorem stepKeepsInvariant : Obligations.StepKeepsInvariant := by
  intro s t h hstep
  obtain ⟨he, ⟨-, hp, rfl⟩ | ⟨-, hp, -, rfl⟩ | ⟨-, hp, -, hexec⟩ | ⟨-, hp, rfl⟩ | ⟨-, hp, rfl⟩ | ⟨p, -, rfl⟩ | ⟨p, -, rfl⟩⟩ :=
    step_cases hstep
  · exact (h.setPhase he hp .idle).enter rfl _
  · exact h.fetch.enter ((s.touch_phase _).trans hp) _
  · exact (exec_effect hexec).inv h.fetch ((s.touch_engine _).trans he) ((s.touch_phase _).trans hp)
  · exact h.takeInput he (by rw [hp]; rfl) _ _
  · exact h.takeInput he (by rw [hp]; rfl) _ _
  · exact h.scanEnd he (.putsFrom s p)
  · exact h.scanEnd he (.putspFrom s p)

/-- Settles O19: COND is unset, nothing is put, and the parameters at the spec's values are legal. -/
theorem resetSatisfiesInvariant : Obligations.ResetSatisfiesInvariant where
  memory := rfl
  cond := nofun
  delivered := Nat.le_refl _
  flushed _ := rfl
  stopped he := absurd rfl he
  params :=
    { opcodes := by decide
      zro := rfl
      negPos := .inl ⟨rfl, rfl⟩
      keyboard := by decide
      exitCode := Nat.succ_ne_zero _ }

/-! ### Runs that cannot fault (spec/10_state.md R33, R39, spec/70_reset_and_hazards.md R284) -/

/-- What every step keeps holds of every state that a run reaches. -/
theorem run_keeps {P : State → Prop} (keep : ∀ s t, P s → step s = .next t → P t) :
    ∀ (k : Nat) {s t : State}, P s → Host.Core.run Sys2Proof.core k s = Host.Outcome.next t → P t
  | 0, s, t, hs, h => by
    obtain rfl : s = t := Host.Outcome.next.inj h
    exact hs
  | k + 1, s, t, hs, h => by
    obtain ⟨u, hstep, hrun⟩ := run_succ_inv h
    exact run_keeps keep k (keep s u hs hstep) hrun

theorem isFaulted_eq_false_iff : s.isFaulted = false ↔ ∀ kind a, s.engine ≠ .faulted kind a := by
  obtain ⟨_, _, _, _, engine⟩ := s
  cases engine <;> simp [State.isFaulted]

/-- The faults of an instruction name an unwritten register or an unset COND. -/
theorem Effect.engine_of_written (h : Effect i s t) (hg : ∀ r : Reg, s.gpr[r].written = true)
    (hc : s.cond.written = true) : t.engine = s.engine ∨ ∃ reason, t.engine = .halted reason := by
  cases h with
  | result _ hu => exact .inl hu.core.engine
  | store _ _ _ _ hu => exact .inl hu.core.engine
  | unsetCond h => exact absurd (hc.symm.trans h) nofun
  | unwritten _ _ hw => exact absurd ((hg _).symm.trans hw) nofun
  | halted => exact .inr ⟨_, rfl⟩
  | jump _ _ hb | output _ hb =>
    obtain ⟨-, -, -, hengine, -⟩ := hb.frame
    exact .inl hengine
  | @input b echo wait _ _ _ hb =>
    obtain ⟨-, -, -, hbengine, -⟩ := hb.frame
    obtain ⟨-, -, -, hengine, -⟩ := b.takeInput_frame echo wait
    exact .inl (hengine.trans hbengine)
  | scan _ _ ht => exact .inl ht.core.engine

theorem step_engine_of_written (hg : ∀ r : Reg, s.gpr[r].written = true) (hc : s.cond.written = true)
    (hr : s.params.reservedBits = .ignore) (h : step s = .next t) :
    t.engine = .running ∨ ∃ reason, t.engine = .halted reason := by
  obtain ⟨he, ⟨-, -, rfl⟩ | ⟨-, -, hstop, rfl⟩ | ⟨-, -, -, hexec⟩ | ⟨-, -, rfl⟩ | ⟨-, -, rfl⟩ | ⟨p, -, rfl⟩ | ⟨p, -, rfl⟩⟩ :=
    step_cases h
  · exact .inr ⟨_, rfl⟩
  · simp [State.reservedBitsStop, hr] at hstop
  · have hfetch := Kept.fetch s
    refine ((exec_effect hexec).engine_of_written (fun r => hfetch.gpr r (hg r)) (hfetch.cond hc)).imp_left fun hengine => ?_
    exact hengine.trans ((s.touch_engine _).trans he)
  · obtain ⟨-, -, -, hengine, -⟩ := s.takeInput_frame false .getc
    exact .inl (hengine.trans he)
  · obtain ⟨-, -, -, hengine, -⟩ := s.takeInput_frame true .inp
    exact .inl (hengine.trans he)
  · exact .inl ((ScanEnd.putsFrom s p).core.engine.trans he)
  · exact .inl ((ScanEnd.putspFrom s p).core.engine.trans he)

/-- Nothing an instruction reads can fault: every register written and COND set, the unused bits ignored; and the engine
is not FAULTED. -/
structure AllWritten (s : State) : Prop where
  notFaulted : s.isFaulted = false
  gpr : ∀ r : Reg, s.gpr[r].written = true
  cond : s.cond.written = true
  reservedBits : s.params.reservedBits = .ignore

theorem AllWritten.step (hs : AllWritten s) (h : step s = .next t) : AllWritten t where
  notFaulted := by
    rw [isFaulted_eq_false_iff]
    rintro kind a hfault
    rcases step_engine_of_written hs.gpr hs.cond hs.reservedBits h with hengine | ⟨_, hengine⟩ <;>
      exact absurd (hengine.symm.trans hfault) nofun
  gpr r := (step_kept h).gpr r (hs.gpr r)
  cond := (step_kept h).cond hs.cond
  reservedBits := by rw [(step_kept h).params]; exact hs.reservedBits

/-- Settles O21: `AllWritten` holds along the run. -/
theorem writtenMachineNeverFaults : Obligations.WrittenMachineNeverFaults :=
  fun _ hf hg hc hr _ k _ _ hrun => (run_keeps (fun _ _ => AllWritten.step) k ⟨hf, hg, hc, hr⟩ hrun).notFaulted

end Sys2Proof.Machine

/-! PROOFS. Noninterference: an instruction reads no general register but those of the column "reads" of R31
(spec/10_state.md). Two states that differ in an unread register stay so, operation by operation. -/

namespace Sys2Proof.Machine

variable {r : Reg} {s s' t : State} {g : Vector Slot 8}

/-! ### Operations that touch no general register -/

/-- The state with other general registers. -/
def State.withGpr (s : State) (g : Vector Slot 8) : State := { s with gpr := g }

@[simp] theorem State.withGpr_console (s : State) : (s.withGpr g).console = s.console := rfl

theorem State.kbdPoll_withGpr (s : State) : (s.withGpr g).kbdPoll = s.kbdPoll.withGpr g := by
  rw [State.kbdPoll, State.kbdPoll, State.withGpr_console]
  rcases s.console.poll with ⟨_ | b, c⟩ <;> rfl

theorem State.touch_withGpr (s : State) (a : Word) : (s.withGpr g).touch a = (s.touch a).withGpr g := by
  rw [State.touch, State.touch, State.kbdPoll_withGpr]
  exact (apply_ite (State.withGpr · g) ..).symm

theorem State.strRead_withGpr (s : State) (p : Word) :
    (s.withGpr g).strRead p = ((s.strRead p).1, (s.strRead p).2.withGpr g) := by
  rw [State.strRead, State.strRead, State.memRead, State.touch_withGpr]
  cases hpolls : s.params.stringReadPolls <;> simp only [State.withGpr, hpolls] <;> rfl

/-- A scan's state with other general registers. -/
def Scan.withGpr (g : Vector Slot 8) : Scan → Scan
  | .ended s => .ended (s.withGpr g)
  | .going p s => .going p (s.withGpr g)

theorem Scan.finish_withGpr (wait : Word → Phase) (x : Scan) : (x.withGpr g).finish wait = (x.finish wait).withGpr g := by
  cases x <;> rfl

theorem putsScan_withGpr : ∀ n p (s : State), putsScan n p (s.withGpr g) = (putsScan n p s).withGpr g
  | 0, _, _ => rfl
  | n + 1, p, s => by
    rw [putsScan, putsScan, State.strRead_withGpr, apply_ite (Scan.withGpr g), ← putsScan_withGpr n]
    rfl

theorem putspScan_withGpr : ∀ n p (s : State), putspScan n p (s.withGpr g) = (putspScan n p s).withGpr g
  | 0, _, _ => rfl
  | n + 1, p, s => by
    rw [putspScan, putspScan, State.strRead_withGpr, apply_ite (Scan.withGpr g), apply_ite (Scan.withGpr g),
      ← putspScan_withGpr n]
    rfl

theorem State.putsFrom_withGpr (s : State) (p : Word) : (s.withGpr g).putsFrom p = (s.putsFrom p).withGpr g := by
  rw [State.putsFrom, putsScan_withGpr, Scan.finish_withGpr, State.putsFrom]

theorem State.putspFrom_withGpr (s : State) (p : Word) : (s.withGpr g).putspFrom p = (s.putspFrom p).withGpr g := by
  rw [State.putspFrom, putspScan_withGpr, Scan.finish_withGpr, State.putspFrom]

/-! ### States that differ in one register only -/

/-- `s'` is `s` but for the content of register `r`. -/
def AgreeBut (r : Reg) (s s' : State) : Prop := ∃ g, s' = s.withGpr g ∧ ∀ j : Reg, j ≠ r → g[j] = s.gpr[j]

/-- An operation that neither reads nor writes a general register keeps the agreement. -/
theorem AgreeBut.map {f : State → State} (h : AgreeBut r s s') (hf : ∀ g, f (s.withGpr g) = (f s).withGpr g)
    (hgpr : (f s).gpr = s.gpr) : AgreeBut r (f s) (f s') := by
  obtain ⟨g, rfl, hg⟩ := h
  exact ⟨g, hf g, fun j hj => by rw [hgpr]; exact hg j hj⟩

theorem AgreeBut.enter (h : AgreeBut r s s') (e : Engine) : AgreeBut r (s.enter e) (s'.enter e) :=
  h.map (f := (·.enter e)) (fun _ => rfl) rfl

theorem AgreeBut.setPc (h : AgreeBut r s s') (a : Word) : AgreeBut r (s.setPc a) (s'.setPc a) :=
  h.map (f := (·.setPc a)) (fun _ => rfl) rfl

theorem AgreeBut.setCC (h : AgreeBut r s s') (v : Word) : AgreeBut r (s.setCC v) (s'.setCC v) :=
  h.map (f := (·.setCC v)) (fun _ => rfl) rfl

theorem AgreeBut.memWrite (h : AgreeBut r s s') (a v : Word) : AgreeBut r (s.memWrite a v) (s'.memWrite a v) :=
  h.map (f := (·.memWrite a v)) (fun _ => rfl) rfl

theorem AgreeBut.setPhase (h : AgreeBut r s s') (w : Phase) : AgreeBut r (s.setPhase w) (s'.setPhase w) :=
  h.map (f := (·.setPhase w)) (fun _ => rfl) rfl

theorem AgreeBut.withConsole (h : AgreeBut r s s') (c : Console) : AgreeBut r (s.withConsole c) (s'.withConsole c) :=
  h.map (f := (·.withConsole c)) (fun _ => rfl) rfl

/-- Output that is delivered at once. -/
theorem AgreeBut.put_flush (h : AgreeBut r s s') (bs : List Byte) : AgreeBut r (s.put bs).flush (s'.put bs).flush :=
  h.map (f := fun s => (s.put bs).flush) (fun _ => rfl) rfl

theorem AgreeBut.touch (h : AgreeBut r s s') (a : Word) : AgreeBut r (s.touch a) (s'.touch a) :=
  h.map (f := (·.touch a)) (fun _ => s.touch_withGpr a) (s.touch_gpr a)

theorem AgreeBut.putsFrom (h : AgreeBut r s s') (p : Word) : AgreeBut r (s.putsFrom p) (s'.putsFrom p) :=
  h.map (f := (·.putsFrom p)) (fun _ => s.putsFrom_withGpr p) (ScanEnd.putsFrom s p).core.gpr

theorem AgreeBut.putspFrom (h : AgreeBut r s s') (p : Word) : AgreeBut r (s.putspFrom p) (s'.putspFrom p) :=
  h.map (f := (·.putspFrom p)) (fun _ => s.putspFrom_withGpr p) (ScanEnd.putspFrom s p).core.gpr

theorem AgreeBut.writeReg (h : AgreeBut r s s') (i : Reg) (v : Word) : AgreeBut r (s.writeReg i v) (s'.writeReg i v) := by
  obtain ⟨g, rfl, hg⟩ := h
  refine ⟨g.set i ⟨v, true⟩, rfl, fun j hj => ?_⟩
  rw [State.writeReg_gpr]
  by_cases hji : j = i
  · rw [hji, gpr_set_self, gpr_set_self]
  · rw [gpr_set_of_ne _ _ hji, gpr_set_of_ne _ _ hji, hg j hj]

theorem AgreeBut.writeResult (h : AgreeBut r s s') (dr : Reg) (v : Word) :
    AgreeBut r (s.writeResult dr v) (s'.writeResult dr v) :=
  (h.writeReg dr v).setCC v

/-! What such states have in common. -/

theorem AgreeBut.pc (h : AgreeBut r s s') : s'.pc = s.pc := by obtain ⟨g, rfl, -⟩ := h; rfl
theorem AgreeBut.cond (h : AgreeBut r s s') : s'.cond = s.cond := by obtain ⟨g, rfl, -⟩ := h; rfl
theorem AgreeBut.console (h : AgreeBut r s s') : s'.console = s.console := by obtain ⟨g, rfl, -⟩ := h; rfl
theorem AgreeBut.params (h : AgreeBut r s s') : s'.params = s.params := by obtain ⟨g, rfl, -⟩ := h; rfl
theorem AgreeBut.instrAddr (h : AgreeBut r s s') : s'.instrAddr = s.instrAddr := by obtain ⟨g, rfl, -⟩ := h; rfl
theorem AgreeBut.memPeek (h : AgreeBut r s s') (a : Word) : s'.memPeek a = s.memPeek a := by
  obtain ⟨g, rfl, -⟩ := h; rfl
theorem AgreeBut.gpr (h : AgreeBut r s s') {j : Reg} (hj : j ≠ r) : s'.gpr[j] = s.gpr[j] := by
  obtain ⟨g, rfl, hg⟩ := h; exact hg j hj

theorem AgreeBut.link (h : AgreeBut r s s') : AgreeBut r s.link s'.link := by
  rw [State.link, State.link, h.pc]
  exact h.writeReg 7 s.pc

theorem AgreeBut.loadInto (h : AgreeBut r s s') (dr : Reg) (a : Word) : AgreeBut r (s.loadInto dr a) (s'.loadInto dr a) := by
  rw [State.loadInto_eq, State.loadInto_eq, (h.touch a).memPeek]
  exact (h.touch a).writeResult dr _

theorem AgreeBut.takeInput (h : AgreeBut r s s') (echo : Bool) (wait : Phase) :
    AgreeBut r (s.takeInput echo wait) (s'.takeInput echo wait) := by
  rw [State.takeInput, State.takeInput, h.console, h.params]
  rcases s.console.getc with ⟨b | _ | _, c⟩
  · have htaken := (h.withConsole c).setPhase .idle
    cases echo with
    | false => exact htaken.writeReg 0 (zext8 b)
    | true => exact (htaken.put_flush [b]).writeReg 0 (zext8 b)
  · exact ((h.withConsole c).setPhase .idle).writeReg 0 s.params.eofSentinel
  · exact h.setPhase wait

/-! ### Results that differ in one register only -/

/-- Two next states that agree but for register `r`. -/
inductive ResultsAgree (r : Reg) : Result → Result → Prop
  | next {t t' : State} (h : AgreeBut r t t') : ResultsAgree r (.next t) (.next t')

theorem ResultsAgree.next_inv {x : Result} (h : ResultsAgree r (.next t) x) : ∃ t', x = .next t' ∧ AgreeBut r t t' := by
  cases h with
  | next h => exact ⟨_, rfl, h⟩

theorem AgreeBut.raiseHalt (h : AgreeBut r s s') (reason : HaltReason) :
    ResultsAgree r (s.raiseHalt reason) (s'.raiseHalt reason) :=
  .next (h.enter _)

theorem AgreeBut.raiseFault (h : AgreeBut r s s') (kind : FaultKind) :
    ResultsAgree r (s.raiseFault kind) (s'.raiseFault kind) := by
  rw [State.raiseFault, State.raiseFault, h.instrAddr]
  exact .next (h.enter _)

/-- Reading another register finds the same in both. -/
theorem AgreeBut.readReg (h : AgreeBut r s s') {j : Reg} (hj : j ≠ r) {k k' : Word → Result}
    (hk : ∀ v, ResultsAgree r (k v) (k' v)) : ResultsAgree r (s.readReg j k) (s'.readReg j k') := by
  rw [State.readReg, State.readReg, h.gpr hj]
  split
  · exact hk _
  · exact h.raiseFault _

theorem execTrap_of_wellFormed {u : BitVec 4} {vect : BitVec 8} (hi : (Instr.trap u vect).wellFormed = true) (s : State) :
    execTrap vect s = s.link.raiseHalt (.unhandledTrap s.instrAddr vect) := by
  obtain ⟨h0, h1, h2, h3, h4, h5⟩ := wellFormed_trap.mp hi
  rw [execTrap, State.trapDispatch, if_neg h0, if_neg h1, if_neg h2, if_neg h3, if_neg h4, if_neg h5]
  rfl

theorem execBr_agree (h : AgreeBut r s s') (n z p : Bool) (off9 : BitVec 9) :
    ResultsAgree r (execBr n z p off9 s) (execBr n z p off9 s') := by
  rw [execBr, execBr, h.cond, h.pc]
  repeat' split
  · exact .next (h.setPc _)
  · exact .next h
  · exact h.raiseFault _
  · exact .next h

/-- From states that differ in an unread register, an instruction goes to states that differ in it only. -/
theorem exec_agree {i : Instr} (hi : i.wellFormed = true) (hr : r ∉ i.gprReads) (h : AgreeBut r s s') :
    ResultsAgree r (exec i s) (exec i s') := by
  have read : ∀ {b b' : State}, AgreeBut r b b' → ∀ {j : Reg}, j ∈ i.gprReads → ∀ {k k' : Word → Result},
      (∀ v, ResultsAgree r (k v) (k' v)) → ResultsAgree r (b.readReg j k) (b'.readReg j k') :=
    fun hb j hj => hb.readReg fun e => hr (e ▸ hj)
  obtain ⟨g, rfl, -⟩ := id h
  cases i <;> dsimp only [exec, execAddReg, execAddImm, execAndReg, execAndImm, execNot, execJmp, execRet, execJsrr, execLdr,
    execSt, execSti, execStr, execOut, State.outRoutine, execPuts, State.putsRoutine, execPutsp, State.putspRoutine]
  case addReg | andReg =>
    exact read h List.mem_cons_self fun _ => read h (List.mem_cons_of_mem _ List.mem_cons_self) fun _ =>
      .next (h.writeResult _ _)
  case addImm | andImm | not => exact read h List.mem_cons_self fun _ => .next (h.writeResult _ _)
  case lea => exact .next (h.writeResult _ _)
  case br => exact execBr_agree h _ _ _ _
  case jmp | ret => exact read h List.mem_cons_self fun _ => .next (h.setPc _)
  case jsr => exact .next (h.link.setPc _)
  case jsrr => exact read h.link List.mem_cons_self fun _ => .next (h.link.setPc _)
  case ld => exact .next (h.loadInto _ _)
  case ldi dr off9 =>
    refine .next (?_ : AgreeBut r ((s.touch _).loadInto dr ((s.touch _).memPeek (pcRel9 s.pc off9))) _)
    rw [← (h.touch _).memPeek]
    exact (h.touch _).loadInto _ _
  case ldr => exact read h List.mem_cons_self fun _ => .next (h.loadInto _ _)
  case st => exact read h List.mem_cons_self fun _ => .next (h.memWrite _ _)
  case sti sr off9 =>
    refine read h List.mem_cons_self fun v =>
      .next (?_ : AgreeBut r ((s.touch _).memWrite ((s.touch _).memPeek (pcRel9 s.pc off9)) v) _)
    rw [← (h.touch _).memPeek]
    exact (h.touch _).memWrite _ _
  case str =>
    exact read h List.mem_cons_self fun _ => read h (List.mem_cons_of_mem _ List.mem_cons_self) fun _ =>
      .next (h.memWrite _ _)
  case trap =>
    rw [execTrap_of_wellFormed hi, execTrap_of_wellFormed hi]
    exact h.link.raiseHalt _
  case getc => exact .next (h.link.takeInput _ _)
  case inp => exact .next ((h.link.put_flush _).takeInput _ _)
  case out => exact read h.link List.mem_cons_self fun _ => .next (h.link.put_flush _)
  case puts => exact read h.link List.mem_cons_self fun _ => .next (h.link.putsFrom _)
  case putsp => exact read h.link List.mem_cons_self fun _ => .next (h.link.putspFrom _)
  case halt => exact (h.link.put_flush _).raiseHalt _
  case rti | res => exact h.raiseHalt _

theorem gpr_set_congr {g g' : Vector Slot 8} (h : ∀ j : Reg, j ≠ r → g[j] = g'[j]) (x : Slot) : g.set r x = g'.set r x := by
  refine Vector.ext fun k hk => ?_
  by_cases hrk : r.val = k
  · simp [hrk]
  · have hk' := h ⟨k, hk⟩ fun e => hrk (congrArg Fin.val e).symm
    simpa [hrk] using hk'

/-- Settles O14: the two runs agree but for the register (`exec_agree`), which only a listed write changes (O13). -/
theorem onlyListedRegistersAreRead : Obligations.OnlyListedRegistersAreRead := by
  intro i s t r x hi h hr
  have hagree : AgreeBut r s (s.withGpr (s.gpr.set r x)) := ⟨_, rfl, fun _ hj => gpr_set_of_ne _ _ hj⟩
  have hexec := exec_agree hi hr hagree
  rw [h] at hexec
  obtain ⟨t', ht', g, rfl, hg⟩ := hexec.next_inv
  refine ⟨t.withGpr g, ht', ?_, fun hw => ?_⟩
  · exact congrArg t.withGpr (gpr_set_congr hg x)
  · exact (onlyListedRegistersAreWritten i _ _ r hi ht' hw).trans (gpr_set_self _ _ _)

end Sys2Proof.Machine

/-! PROOFS. The frames of the instructions (spec/10_state.md R31, R37, spec/20_memory.md R70). -/

namespace Sys2Proof.Machine

variable {i : Instr} {s t u b : State}

/-! ### Memory through a frame -/

theorem State.memPeek_congr (h : t.mem = s.mem) (a : Word) : t.memPeek a = s.memPeek a := by
  rw [State.memPeek, State.memPeek, h]

/-- A store changes the Word at its address only (R64, R73). -/
theorem State.memPeek_memWrite_of_ne (s : State) {a ea : Word} (v : Word) (h : a ≠ ea) :
    (s.memWrite ea v).memPeek a = s.memPeek a :=
  Memory.read_write_of_ne s.mem v fun e => h (BitVec.eq_of_toNat_eq e)

theorem ScanEnd.memPeek (h : ScanEnd s t) {a : Word} (h1 : a ≠ s.params.kbsrAddr) (h2 : a ≠ s.params.kbdrAddr) :
    t.memPeek a = s.memPeek a := by
  cases h with
  | ended hu | going hu => exact hu.memPeek a h1 h2

theorem ScanEnd.mem (h : ScanEnd s t) (hp : s.params.stringReadPolls = false) : t.mem = s.mem := by
  cases h with
  | ended hu | going hu => exact hu.mem hp

theorem Effect.cond_of_flagDest_none (h : Effect i s t) (hf : i.flagDest = none) : t.cond = s.cond := by
  rcases h.cond with ⟨dr, hdr, -⟩ | ⟨hcond, -⟩
  · exact absurd (hf.symm.trans hdr) nofun
  · exact hcond

/-! ### Instructions without a data access, and traps -/

theorem Effect.frame_of_noDataAccess (h : Effect i s t) (hn : i.noDataAccess = true) (hi : i.isTrap = false) :
    t.mem = s.mem ∧ t.console = s.console ∧ t.phase = s.phase := by
  cases h with
  | result _ _ hu => rw [hu hn]; exact ⟨rfl, rfl, rfl⟩
  | store _ _ hn' => exact absurd (hn.symm.trans hn') nofun
  | unsetCond => exact ⟨rfl, rfl, rfl⟩
  | jump _ _ hb | unwritten hb | halted hb =>
    obtain ⟨-, -, hmem, -, hphase, -⟩ := hb.frame
    exact ⟨hmem, hb.console hi, hphase⟩
  | output hi' | input hi' | scan hi' => exact absurd (hi.symm.trans hi') nofun

/-- Settles O22, by the frames of the effects. -/
theorem frameOfRegisterInstructions : Obligations.FrameOfRegisterInstructions := by
  intro i s t hn hi h
  have heff := exec_effect_of_wellFormed (fun ht => absurd (hi.symm.trans ht) nofun) h
  obtain ⟨hmem, hconsole, hphase⟩ := heff.frame_of_noDataAccess hn hi
  exact ⟨fun _ => heff.gpr, heff.cond_of_flagDest_none, State.memPeek_congr hmem, hconsole, hphase, heff.kept.abortSignal,
    heff.kept.params⟩

/-- A trap leaves memory, or is a string scan. -/
theorem Effect.mem_of_isTrap (h : Effect i s t) (hi : i.isTrap = true) :
    t.mem = s.mem ∨ (i.noDataAccess = false ∧ ScanEnd s.link t) := by
  cases h with
  | result hdr => exact absurd ((Instr.flagDest_of_isTrap hi).symm.trans hdr) nofun
  | jump _ hi' | store _ hi' => exact absurd (hi.symm.trans hi') nofun
  | unsetCond => exact .inl rfl
  | unwritten hb | halted hb | output _ hb =>
    obtain ⟨-, -, hmem, -⟩ := hb.frame
    exact .inl hmem
  | @input b echo wait _ _ _ hb =>
    obtain ⟨-, -, hbmem, -⟩ := hb.frame
    obtain ⟨-, -, hmem, -⟩ := b.takeInput_frame echo wait
    exact .inl (hmem.trans hbmem)
  | scan _ hn ht => exact .inr ⟨hn, ht⟩

/-- Settles O26: only a string scan may touch memory, and only by a poll. -/
theorem frameOfTraps : Obligations.FrameOfTraps := by
  intro i s t hwf hi h
  have heff := exec_effect_of_wellFormed (fun _ => hwf) h
  have hpc : t.pc = s.pc := by
    rcases heff.pc with ⟨hpc, -⟩ | ⟨hpc, -⟩
    · exact hpc.trans (nextPc_of_isTrap hi)
    · exact hpc
  refine ⟨fun _ => heff.gpr, heff.cond_of_flagDest_none (Instr.flagDest_of_isTrap hi), hpc, ?_, ?_, heff.kept.abortSignal,
    heff.kept.params⟩
  · intro hquiet
    rcases heff.mem_of_isTrap hi with hmem | ⟨hn, ht⟩
    · exact State.memPeek_congr hmem
    · rcases hquiet with hp | hn'
      · exact State.memPeek_congr (ht.mem hp)
      · exact absurd (hn.symm.trans hn') nofun
  · intro a h1 h2
    rcases heff.mem_of_isTrap hi with hmem | ⟨-, ht⟩
    · exact State.memPeek_congr hmem a
    · exact ht.memPeek h1 h2

/-! ### Loads -/

/-- No address that the load reads is `KBSR_ADDR`. -/
def QuietLoad (i : Instr) (s : State) : Prop :=
  match i with
  | .ld _ off9 => pcRel9 s.pc off9 ≠ s.params.kbsrAddr
  | .ldi _ off9 => pcRel9 s.pc off9 ≠ s.params.kbsrAddr ∧ s.memPeek (pcRel9 s.pc off9) ≠ s.params.kbsrAddr
  | .ldr _ base off6 => baseOff6 s.gpr[base].value off6 ≠ s.params.kbsrAddr
  | _ => True

/-- All that a load can do: a result after its reads, which change nothing where the load is quiet, or a fault. -/
theorem exec_load_inv {dr base : Reg} {off9 : BitVec 9} {off6 : BitVec 6} (h : exec i s = .next t)
    (hi : i = .ld dr off9 ∨ i = .ldi dr off9 ∨ i = .ldr dr base off6) :
    (∃ u v, ReadFrame s u ∧ (QuietLoad i s → u = s) ∧ t = u.writeResult dr v) ∨ ∃ e, t = s.enter e := by
  rcases hi with rfl | rfl | rfl
  · exact .inl ⟨_, _, .touch s _, State.touch_of_ne, execLd_inv h⟩
  · refine .inl ⟨_, _, (ReadFrame.touch s _).trans (.touch _ _), ?_, execLdi_inv h⟩
    rintro ⟨hpointer, hdata⟩
    rw [State.touch_of_ne hpointer, State.touch_of_ne hdata]
  · exact (execLdr_inv h).imp (fun ht => ⟨_, _, .touch s _, State.touch_of_ne, ht⟩) fun ⟨_, ht⟩ => ⟨_, ht⟩

/-- Settles O23, by `exec_load_inv`. -/
theorem frameOfLoads : Obligations.FrameOfLoads := by
  intro i s t dr base off9 off6 h hi
  obtain ⟨u, v, hu, hquiet, rfl⟩ | ⟨e, rfl⟩ := exec_load_inv h hi
  · refine ⟨fun r hr => (gpr_set_of_ne _ _ hr).trans (by rw [hu.core.gpr]), hu.core.pc, hu.memPeek, hu.output,
      hu.delivered, hu.phase, hu.core.abortSignal, hu.core.params, fun hq => ?_⟩
    obtain rfl : u = s := by
      rcases hq with ⟨rfl, hq⟩ | ⟨rfl, hq⟩ | ⟨rfl, hq⟩ <;> exact hquiet hq
    exact ⟨fun _ => rfl, rfl⟩
  · exact ⟨fun _ _ => rfl, rfl, fun _ _ _ => rfl, rfl, rfl, rfl, rfl, rfl, fun _ => ⟨fun _ => rfl, rfl⟩⟩

/-! ### Stores -/

/-- Settles O24: a store to the address, or a fault. -/
theorem frameOfDirectStores : Obligations.FrameOfDirectStores := by
  intro s t sr base off9 off6 i ea hi h
  have hcases : (∃ v, t = s.memWrite ea v) ∨ ∃ e, t = s.enter e := by
    rcases hi with ⟨rfl, rfl⟩ | ⟨rfl, rfl⟩
    · exact (execSt_inv h).imp (fun ht => ⟨_, ht⟩) fun ⟨_, ht⟩ => ⟨_, ht⟩
    · exact (execStr_inv h).imp (fun ht => ⟨_, ht⟩) fun ⟨_, _, _, ht⟩ => ⟨_, ht⟩
  obtain ⟨v, rfl⟩ | ⟨e, rfl⟩ := hcases
  · exact ⟨rfl, rfl, rfl, fun _ => s.memPeek_memWrite_of_ne v, rfl, rfl, rfl, rfl⟩
  · exact ⟨rfl, rfl, rfl, fun _ _ => rfl, rfl, rfl, rfl, rfl⟩

/-- Settles O25: the read of the pointer, which may poll, and the store where it points; or a fault. -/
theorem frameOfIndirectStore : Obligations.FrameOfIndirectStore := by
  intro s t sr off9 h
  have hread := ReadFrame.touch s (pcRel9 s.pc off9)
  rcases execSti_inv h with rfl | ⟨-, rfl⟩
  · refine ⟨hread.core.gpr, hread.core.cond, hread.core.pc, fun a ha hpoll => ?_, hread.output,
      fun hne => by rw [State.memWrite_console, State.touch_of_ne hne], hread.phase, hread.core.abortSignal, hread.core.params⟩
    refine (State.memPeek_memWrite_of_ne _ _ ha).trans ?_
    by_cases hk : pcRel9 s.pc off9 = s.params.kbsrAddr
    · obtain ⟨h1, h2⟩ := hpoll hk
      exact hread.memPeek a h1 h2
    · rw [State.touch_of_ne hk]
  · exact ⟨rfl, rfl, rfl, fun _ _ _ => rfl, rfl, fun _ => rfl, rfl, rfl, rfl⟩

end Sys2Proof.Machine

/-! PROOFS. The keyboard poll (spec/10_state.md R47), the host's abort (R50), the exit codes (R41), reset and launch (R52). -/

namespace Sys2Proof.Machine

/-! ### The console and the host -/

theorem Console.drawPoll_cons {c : Console} {answer : Bool} {later : List Bool} (h : c.polls = answer :: later) :
    c.drawPoll.1 = answer := by
  rw [Console.drawPoll, h]

/-- Settles O36, by the two cases of a poll. -/
theorem pollConsumesTheNextByteOrNone : Obligations.PollConsumesTheNextByteOrNone := by
  intro c
  obtain ⟨hinput, -, -, -⟩ := c.drawPoll_frame
  obtain ⟨-, -, houtput, hdelivered⟩ := c.poll_frame
  rcases c.poll_cases with ⟨b, rest, hin, hdraw, hp⟩ | ⟨hnone, hp⟩
  · refine ⟨.inl ⟨b, rest, hin, by rw [hp], by rw [hp]⟩, fun h => ?_, fun b' rest' later h _ => ?_, fun later h => ?_,
      houtput, hdelivered⟩
    · exact absurd (h.symm.trans hin) nofun
    · obtain ⟨rfl, -⟩ := List.cons.inj (hin.symm.trans h)
      rw [hp]
    · exact absurd (hdraw.symm.trans (Console.drawPoll_cons h)) nofun
  · refine ⟨.inr ⟨by rw [hp], by rw [hp, hinput]⟩, fun _ => by rw [hp], fun b rest later h hpolls => ?_,
      fun _ _ => by rw [hp], houtput, hdelivered⟩
    rcases hnone with hdraw | hempty
    · exact absurd (hdraw.symm.trans (Console.drawPoll_cons hpolls)) nofun
    · exact absurd (hempty.symm.trans h) nofun

/-- Settles O9: in each of the three phases the step looks at the signal first. -/
theorem hostAbortEndsTheRun : Obligations.HostAbortEndsTheRun := by
  rintro s he ha (hp | hp | hp)
  · simp [step, he, hp, ha, State.raiseHalt, State.enter]
  · simp [step, he, hp, ha, State.raiseHalt, State.enter, State.setPhase]
  · simp [step, he, hp, ha, State.raiseHalt, State.enter, State.setPhase]

/-- Settles O55: the exit code is 0 for HALT, the non-zero parameter for the fatal halts, and else not set. -/
theorem exitCodes : Obligations.ExitCodes := by
  refine ⟨fun s hs => ⟨?_, fun a op h => ?_, fun a v h => ?_, fun h => ?_⟩, ⟨rfl, fun _ _ => rfl, fun _ _ => rfl, rfl⟩,
    fun _ => rfl, rfl, rfl⟩
  · rw [State.normalEnd, State.exitCode]
    split
    case h_2 h | h_3 h => simp [h, hs.exitCode]
    all_goals simp [*]
  · exact ⟨s.params.exitCodeFault, hs.exitCode, by rw [State.exitCode, h]⟩
  · exact ⟨s.params.exitCodeFault, hs.exitCode, by rw [State.exitCode, h]⟩
  · rw [State.exitCode, h]

/-! ### Reset and launch -/

/-- Settles O56, field by field. -/
theorem resetValues : Obligations.ResetValues := by
  refine ⟨rfl, rfl, fun _ => rfl, rfl, rfl, ?_, rfl⟩
  decide

/-- The loader puts each Word of an image at its place (R80). -/
theorem Memory.read_storeFrom_getElem : ∀ (ws : List Word) {m : Memory} {a k : Nat} {w : Word}, m.wf = true →
    a + ws.length ≤ 65536 → ws[k]? = some w → (m.storeFrom a ws).read (a + k) = w
  | v :: ws, m, a, 0, w, hm, hlen, hw => by
    obtain rfl : v = w := Option.some.inj hw
    rw [Memory.storeFrom, Memory.read_storeFrom_of_lt ws _ (by omega)]
    exact Memory.read_write_self hm a v
  | v :: ws, m, a, k + 1, w, hm, hlen, hw => by
    rw [List.length_cons] at hlen
    rw [Memory.storeFrom, show a + (k + 1) = a + 1 + k by omega]
    exact Memory.read_storeFrom_getElem ws (Memory.wf_write hm (by omega) v) (by omega) hw

theorem launchImage_of_fits {p : Params} {img : Image} {g : Option (Vector Word 8)} {input : List Byte} {ended : Bool}
    (h : img.fits = true) :
    launchImage p img g input ended = .ok
      { gpr := initialGpr g
        pc := img.origin
        cond := ⟨0x0000#16, false⟩
        mem := Memory.storeFrom [] img.origin.toNat img.words
        engine := .running
        phase := .idle
        console := { Console.fresh with input := input, inputEnded := ended }
        abortSignal := false
        params := p } := by
  simp only [launchImage, launch, Memory.loadImages, if_pos h]
  rfl

/-- Settles O57: the loader's stores start from the empty memory, and inside the image no address wraps. -/
theorem launchOfOneImage : Obligations.LaunchOfOneImage := by
  intro p img input ended hfits
  have hlen : img.origin.toNat + img.words.length ≤ 65536 := by simpa [Image.fits] using hfits
  refine ⟨_, launchImage_of_fits hfits, fun r => ?_, rfl, rfl, rfl, rfl, rfl, rfl, rfl, rfl, fun k w hw => ?_, fun a ha => ?_⟩
  · simp [initialGpr]
  · have hk : k < img.words.length := (List.getElem?_eq_some_iff.mp hw).1
    have haddr : (img.origin + BitVec.ofNat 16 k).toNat = img.origin.toNat + k := by
      rw [BitVec.toNat_add, BitVec.toNat_ofNat]
      omega
    rw [State.memPeek, haddr]
    exact Memory.read_storeFrom_getElem img.words Memory.wf_nil hlen hw
  · rw [State.memPeek]
    rcases ha with hlt | hge
    · exact Memory.read_storeFrom_of_lt img.words [] hlt
    · exact Memory.read_storeFrom_of_ge img.words [] hge

end Sys2Proof.Machine

/-! PROOFS. `MemRead`, `MemWrite` and the keyboard poll (spec/20_memory.md R62-R65), image files and the loader (R80-R82),
the state that a launch answers (spec/70_reset_and_hazards.md R280). -/

namespace Sys2Proof.Machine

/-! ### `MemRead` and `MemWrite` -/

theorem State.kbdPoll_of_key {s : State} {b : Byte} {c : Console} (h : s.console.poll = (some b, c)) :
    s.kbdPoll =
      ((s.withConsole c).memWrite s.params.kbsrAddr s.params.kbsrReady).memWrite s.params.kbdrAddr (zext8 b) := by
  rw [State.kbdPoll, h]

theorem State.kbdPoll_of_none {s : State} {c : Console} (h : s.console.poll = (none, c)) :
    s.kbdPoll = (s.withConsole c).memWrite s.params.kbsrAddr 0x0000#16 := by
  rw [State.kbdPoll, h]

/-- A string read under `TRAP_STRING_READ_POLLS` is a `MemRead` (R210). -/
theorem State.strRead_polls {s : State} (h : s.params.stringReadPolls = true) (p : Word) : s.strRead p = s.memRead p :=
  if_pos h

/-- Settles O35: a read away from `KBSR_ADDR` touches nothing, a read there polls, and a poll has two answers. -/
theorem memReadPollsAtKbsr : Obligations.MemReadPollsAtKbsr := by
  refine fun s a => ⟨fun ha => ?_, fun b c h => ?_, fun c h => ?_, fun ha => ?_, fun h => ?_, fun h => ?_⟩
  · rw [State.memRead, State.touch_of_ne ha, State.memPeek]
  · rw [State.kbdPoll_of_key h]
    rfl
  · rw [State.kbdPoll_of_none h]
    rfl
  · rw [State.memRead, State.touch_kbsr ha, State.memPeek]
  · exact State.strRead_peek (.inl h)
  · exact State.strRead_polls h a

/-- Settles O37, by the laws of a write to a canonical memory. -/
theorem memWriteStoresOneWord : Obligations.MemWriteStoresOneWord := fun s a v hm =>
  ⟨Memory.read_write_self hm a.toNat v, fun _ hb => s.memPeek_memWrite_of_ne v hb, Memory.wf_write_word hm a v, rfl⟩

/-! ### Image files (R80, R82) -/

theorem exists_wordsOfBytes : ∀ {file : List Byte}, file.length % 2 = 0 → ∃ ws, wordsOfBytes file = some ws
  | [], _ => ⟨[], rfl⟩
  | [_], h => absurd h nofun
  | hi :: lo :: rest, h => by
    have hrest : rest.length % 2 = 0 := by
      simp only [List.length_cons] at h
      omega
    obtain ⟨ws, hws⟩ := exists_wordsOfBytes hrest
    exact ⟨(hi ++ lo) :: ws, by rw [wordsOfBytes, hws, Option.map_some]⟩

/-- What the Words of a file `hi, lo, rest` are. -/
theorem wordsOfBytes_cons_cons {hi lo : Byte} {rest : List Byte} {ws : List Word}
    (h : wordsOfBytes (hi :: lo :: rest) = some ws) : ∃ ws', wordsOfBytes rest = some ws' ∧ ws = (hi ++ lo) :: ws' := by
  obtain ⟨ws', hws', e⟩ := Option.map_eq_some_iff.mp h
  exact ⟨ws', hws', e.symm⟩

/-- A Word is two bytes. -/
theorem length_of_wordsOfBytes : ∀ {file : List Byte} {ws : List Word}, wordsOfBytes file = some ws →
    file.length = 2 * ws.length
  | [], _, h => by obtain rfl := Option.some.inj h; rfl
  | [_], _, h => absurd h nofun
  | _ :: _ :: _, _, h => by
    obtain ⟨ws', hws', rfl⟩ := wordsOfBytes_cons_cons h
    simp only [List.length_cons, length_of_wordsOfBytes hws']
    omega

/-- Word `j` is the big-endian pair of the bytes `2j` and `2j + 1`. -/
theorem getElem?_wordsOfBytes : ∀ {file : List Byte} {ws : List Word} {j : Nat} {hi lo : Byte},
    wordsOfBytes file = some ws → file[2 * j]? = some hi → file[2 * j + 1]? = some lo → ws[j]? = some (hi ++ lo)
  | [], _, _, _, _, _, hhi, _ => absurd hhi nofun
  | [_], _, _, _, _, h, _, _ => absurd h nofun
  | _ :: _ :: _, _, 0, _, _, h, hhi, hlo => by
    obtain ⟨ws', -, rfl⟩ := wordsOfBytes_cons_cons h
    obtain rfl := Option.some.inj hhi
    obtain rfl := Option.some.inj hlo
    rfl
  | _ :: _ :: _, _, j + 1, _, _, h, hhi, hlo => by
    obtain ⟨ws', hws', rfl⟩ := wordsOfBytes_cons_cons h
    exact getElem?_wordsOfBytes (j := j) hws' hhi hlo

/-- An image is read exactly where the file has a first Word, its origin. -/
theorem parseImage_eq_ok_iff {file : List Byte} {img : Image} :
    parseImage file = .ok img ↔ wordsOfBytes file = some (img.origin :: img.words) := by
  cases img
  unfold parseImage
  split <;> simp [*]

theorem length_of_parseImage {file : List Byte} {img : Image} (h : parseImage file = .ok img) :
    file.length = 2 * (img.words.length + 1) :=
  length_of_wordsOfBytes (parseImage_eq_ok_iff.mp h)

/-- Settles O58: the origin is Word 0 of the file, and Word `k` of the image its Word `k + 1`. -/
theorem imageFileIsBigEndian : Obligations.ImageFileIsBigEndian := by
  intro file img h
  have hws := parseImage_eq_ok_iff.mp h
  refine ⟨length_of_parseImage h, fun hi lo hhi hlo => ?_, fun k w hi lo hw hhi hlo => ?_⟩
  · exact Option.some.inj (getElem?_wordsOfBytes (j := 0) hws hhi hlo)
  · exact Option.some.inj (hw.symm.trans (getElem?_wordsOfBytes (j := k + 1) hws hhi hlo))

/-! ### The loader (R80-R82) -/

theorem Image.fits_iff {img : Image} : img.fits = true ↔ img.origin.toNat + img.words.length ≤ 65536 :=
  decide_eq_true_iff

theorem Memory.loadImages_cons_of_fits {img : Image} (h : img.fits = true) (m : Memory) (rest : List Image) :
    m.loadImages (img :: rest) = (m.storeFrom img.origin.toNat img.words).loadImages rest := by
  rw [Memory.loadImages, if_pos h]

theorem Memory.loadImages_cons_of_not_fits {img : Image} (h : ¬ img.fits = true) (m : Memory) (rest : List Image) :
    m.loadImages (img :: rest) = .error .pastEnd := by
  rw [Memory.loadImages, if_neg h]

/-- The loader keeps the canonical form. -/
theorem Memory.wf_loadImages : ∀ {images : List Image} {m m' : Memory}, m.wf = true → m.loadImages images = .ok m' →
    m'.wf = true
  | [], _, _, hm, h => Except.ok.inj h ▸ hm
  | img :: rest, m, m', hm, h => by
    by_cases hfits : img.fits = true
    · rw [Memory.loadImages_cons_of_fits hfits] at h
      exact Memory.wf_loadImages (Memory.wf_storeFrom _ hm (Image.fits_iff.mp hfits)) h
    · rw [Memory.loadImages_cons_of_not_fits hfits] at h
      exact absurd h nofun

/-- An image past 0xFFFF refuses the load wherever it stands among the images. -/
theorem Memory.loadImages_pastEnd {img : Image} (hfits : ¬ img.fits = true) : ∀ {images : List Image} (m : Memory),
    img ∈ images → m.loadImages images = .error .pastEnd
  | first :: rest, m, hmem => by
    by_cases hfirst : first.fits = true
    · have hrest : img ∈ rest := (List.mem_cons.mp hmem).resolve_left fun e => hfits (e ▸ hfirst)
      rw [Memory.loadImages_cons_of_fits hfirst]
      exact Memory.loadImages_pastEnd hfits _ hrest
    · exact Memory.loadImages_cons_of_not_fits hfirst m rest

/-- Settles O59: the second image is stored last, and outside it the first image's Words are left. -/
theorem laterImageStays : Obligations.LaterImageStays := by
  intro m first second hm hfirst hsecond
  have hm1 : (m.storeFrom first.origin.toNat first.words).wf = true :=
    Memory.wf_storeFrom _ hm (Image.fits_iff.mp hfirst)
  refine ⟨_, by rw [Memory.loadImages_cons_of_fits hfirst, Memory.loadImages_cons_of_fits hsecond]; rfl,
    fun k w hw => ?_, fun k w hw hout => ?_⟩
  · exact Memory.read_storeFrom_getElem _ hm1 (Image.fits_iff.mp hsecond) hw
  · have hread := Memory.read_storeFrom_getElem _ hm (Image.fits_iff.mp hfirst) hw
    rcases hout with hlt | hge
    · rw [Memory.read_storeFrom_of_lt _ _ hlt, hread]
    · rw [Memory.read_storeFrom_of_ge _ _ hge, hread]

/-! ### The launch (R280) -/

theorem launch_of_loadError {p : Params} {l : Launch} {e : LoadError} (h : Memory.loadImages [] l.images = .error e) :
    launch p l = .error e := by
  rw [launch, h]

/-- The state that a launch answers, but for the registers and the input. -/
theorem launch_start {p : Params} {l : Launch} {s : State} (h : launch p l = .ok s) :
    Memory.loadImages [] l.images = .ok s.mem ∧ s.cond.written = false ∧ s.phase = .idle ∧ s.console.output = [] ∧
      s.console.delivered = 0 ∧ s.params = p := by
  unfold launch at h
  split at h
  next => exact absurd h nofun
  next mem hload =>
    obtain rfl := Except.ok.inj h
    exact ⟨hload, rfl, rfl, rfl, rfl, rfl⟩

/-- Settles O60: an image is read exactly from an even, non-zero number of bytes, and the loader's one error is an image
past the end. -/
theorem loadErrorsRefuseTheLaunch : Obligations.LoadErrorsRefuseTheLaunch := by
  refine ⟨fun file hbad => ?_, fun file heven htwo => ?_, fun p l img himg hpast => ?_, fun m origin => ?_⟩
  · cases hparse : parseImage file with
    | error e => exact ⟨e, rfl⟩
    | ok img =>
      have hlen := length_of_parseImage hparse
      omega
  · obtain ⟨ws, hws⟩ := exists_wordsOfBytes heven
    have hlen := length_of_wordsOfBytes hws
    cases ws with
    | nil => exact absurd hlen (by simp only [List.length_nil]; omega)
    | cons origin words => exact ⟨⟨origin, words⟩, parseImage_eq_ok_iff.mpr hws⟩
  · have hfits : ¬ img.fits = true := fun h => absurd (Image.fits_iff.mp h) (by omega)
    exact launch_of_loadError (Memory.loadImages_pastEnd hfits [] himg)
  · have hfits : (Image.mk origin []).fits = true := Image.fits_iff.mpr (by simp only [List.length_nil]; omega)
    exact Memory.loadImages_cons_of_fits hfits m []

/-- Settles O20: the loader keeps the canonical form of the empty memory; COND is unset and nothing is put. -/
theorem launchSatisfiesInvariant : Obligations.LaunchSatisfiesInvariant := by
  intro p l s hp h
  obtain ⟨hload, hcond, hphase, hout, hdel, hparams⟩ := launch_start h
  exact
    { memory := Memory.wf_loadImages Memory.wf_nil hload
      cond := fun hset => absurd (hcond.symm.trans hset) nofun
      delivered := by rw [hdel]; exact Nat.zero_le _
      flushed := fun _ => by rw [hdel, hout, List.length_nil]
      stopped := fun _ => hphase
      params := hparams ▸ hp }

end Sys2Proof.Machine

/-! PROOFS. The statements on decoding, the unused bits and the cycle (spec/30_encoding.md R96-R98, R101-R103), and that
a step exists exactly in RUNNING (spec/60_exceptions.md R254). -/

namespace Sys2Proof

/-- Settles O4: the Words are fixed, so each is decoded by evaluation. -/
theorem sampleWordsDecode : Obligations.SampleWordsDecode := by
  unfold Obligations.SampleWordsDecode
  decide

/-! ### The unused bits of a row (spec/30_encoding.md R96) -/

theorem Instr.standardBits_iff {i : Instr} : i.standardBits = true ↔ i = i.standardized := by
  rw [Instr.standardBits, beq_iff_eq]

/-- RET's unused bits are the standard ones, so the rule is the same for it and for the other JMP Words. -/
theorem standardBits_decodeJmp {hi : BitVec 3} {base : Reg} {lo : BitVec 6} :
    (decodeJmp hi base lo).standardBits = true ↔ hi = 0#3 ∧ lo = 0#6 := by
  unfold decodeJmp
  split
  case isTrue h =>
    obtain ⟨hhi, -, hlo⟩ := h
    exact iff_of_true rfl ⟨hhi, hlo⟩
  case isFalse => simp [Instr.standardBits_iff, Instr.standardized]

/-- Whatever the vector, the unused bits of a TRAP are the four above it. -/
theorem standardBits_decodeTrap {u : BitVec 4} {vect : BitVec 8} :
    (decodeTrap u vect).standardBits = true ↔ u = 0#4 := by
  unfold decodeTrap
  repeat' split
  all_goals simp [Instr.standardBits_iff, Instr.standardized]

namespace Machine

variable {s : State}

/-- No meaning reads an unused field. -/
@[simp] theorem exec_standardized (i : Instr) (s : State) : exec i.standardized s = exec i s := by
  cases i <;> rfl

/-! ### The cycle (spec/30_encoding.md R97) -/

/-- Between two cycles, with no abort pending, a step is a whole cycle. -/
theorem step_of_idle (he : s.engine = .running) (hp : s.phase = .idle) (ha : s.abortSignal = false) :
    step s = runCycle s := by
  simp [step, he, hp, ha]

theorem State.reservedBitsStop_iff {i : Instr} :
    s.reservedBitsStop i = true ↔ s.params.reservedBits = .fault ∧ i.standardBits = false := by
  simp [State.reservedBitsStop]

theorem State.fetch_params (s : State) : s.fetch.2.params = s.params := s.touch_params s.pc

/-- After the fetch the address of the instruction is the PC before it. -/
theorem State.fetch_instrAddr (s : State) : s.fetch.2.instrAddr = s.pc := by
  simp [State.instrAddr]

/-- Settles O7: the cycle's check is the one of R97 on the parameters before the fetch, which the fetch keeps. -/
theorem stepRunsTheDecodedInstruction : Obligations.StepRunsTheDecodedInstruction := by
  intro s he hp ha
  rw [step_of_idle he hp ha, runCycle, State.raiseFault, State.fetch_instrAddr]
  simp only [State.reservedBitsStop_iff, State.fetch_params]
  rfl

/-- Settles O5: the fields are read off row by row, equal meanings are `exec_standardized`, and the two policies are
the two branches of the cycle's check. -/
theorem unusedBitsPolicy : Obligations.UnusedBitsPolicy := by
  refine ⟨fun m w => ?_, fun m w w' s h => ?_, fun s he hp ha hpolicy => ?_, fun s he hp ha hpolicy hbits => ?_⟩
  · rw [decode]
    cases opcodeOf m w
    case jmp => simp [standardBits_decodeJmp]
    case trap => simp [standardBits_decodeTrap]
    case add | and => cases w.getLsbD 5 <;> simp [Instr.standardBits_iff, Instr.standardized]
    case jsr => cases w.getLsbD 11 <;> simp [Instr.standardBits_iff, Instr.standardized]
    all_goals simp [Instr.standardBits_iff, Instr.standardized]
  · rw [← exec_standardized (decode m w), h, exec_standardized]
  · rw [stepRunsTheDecodedInstruction s he hp ha, if_neg]
    rintro ⟨hfault, -⟩
    exact absurd (hpolicy.symm.trans hfault) nofun
  · rw [stepRunsTheDecodedInstruction s he hp ha, if_pos ⟨hpolicy, hbits⟩]

/-! ### No instruction stops the model (spec/30_encoding.md R98, spec/60_exceptions.md R250) -/

/-- Of the seven routines only OUT, PUTS and PUTSP read a register. -/
theorem State.trapDispatch_next (s : State) (vect : BitVec 8) : ∃ t, s.trapDispatch vect = .next t := by
  have hread (k : Word → State) : ∃ t, (s.readReg 0 fun v => .next (k v)) = .next t :=
    State.readReg_next fun _ => ⟨_, rfl⟩
  unfold State.trapDispatch
  split_ifs
  · exact ⟨_, rfl⟩
  · exact hread _
  · exact hread _
  · exact ⟨_, rfl⟩
  · exact hread _
  · exact ⟨_, rfl⟩
  · exact ⟨_, rfl⟩

/-- Every instruction answers a next state, a halt or a fault of the machine among them. -/
theorem exec_next (i : Instr) (s : State) : ∃ t, exec i s = .next t := by
  cases i
  case addReg | andReg | str => exact State.readReg_next fun _ => State.readReg_next fun _ => ⟨_, rfl⟩
  case addImm | andImm | not | jmp | ret | jsrr | ldr | st | sti | out | puts | putsp =>
    exact State.readReg_next fun _ => ⟨_, rfl⟩
  case trap vect => exact s.link.trapDispatch_next vect
  case br n z p off9 =>
    change ∃ t, execBr n z p off9 s = .next t
    unfold execBr
    repeat' split
    all_goals exact ⟨_, rfl⟩
  all_goals exact ⟨_, rfl⟩

theorem runCycle_next (s : State) : ∃ t, runCycle s = .next t := by
  unfold runCycle
  split
  · exact ⟨_, rfl⟩
  · exact exec_next _ _

theorem step_next (he : s.engine = .running) : ∃ t, step s = .next t := by
  cases hp : s.phase <;> cases ha : s.abortSignal
  case idle.false => rw [step_of_idle he hp ha]; exact runCycle_next s
  all_goals simp [step, he, hp, ha, State.raiseHalt]

/-- Settles O8: `step_next` in RUNNING, and by `step_cases` no step elsewhere. -/
theorem stepExistsExactlyWhenRunning : Obligations.StepExistsExactlyWhenRunning := by
  refine fun s => ⟨fun ⟨t, h⟩ => ?_, step_next⟩
  obtain ⟨he, -⟩ := step_cases h
  exact he

end Machine

end Sys2Proof

/-! PROOFS. The operate instructions (spec/40_operate.md R120-R124). Each reads one source or two, in order, and writes
one result, so what it answers is said once for each of the two shapes, over the function computed. -/

namespace Sys2Proof

/-! ### The Words of the operate formats as placed fields (spec/30_encoding.md R93) -/

/-- Two fields written one after the other stand at neighbouring places. -/
theorem place_append {n k : Nat} (lo : Nat) (x : BitVec n) (y : BitVec k) :
    place lo (x ++ y) = place (lo + k) x ||| place lo y := by
  apply BitVec.eq_of_getLsbD_eq
  intro i hi
  simp only [BitVec.getLsbD_or, getLsbD_place, BitVec.getLsbD_append]
  by_cases hlow : i < lo + k <;> grind

/-- ADD and AND in register mode (R93), the mode bit in bit 5. -/
theorem registerMode_word (op : BitVec 4) (dr sr1 sr2 : Reg) (mode : BitVec 1) (u : BitVec 2) :
    (op ++ regBits dr ++ regBits sr1 ++ mode ++ u ++ regBits sr2 : Word) =
      place 12 op ||| place 9 (regBits dr) ||| place 6 (regBits sr1) ||| place 5 mode ||| place 3 u |||
        place 0 (regBits sr2) :=
  (place_zero_word _).symm.trans ((place_append 0 _ _).trans (by simp only [place_append]))

/-- ADD and AND in immediate mode (R93), the mode bit in bit 5. -/
theorem immediateMode_word (op : BitVec 4) (dr sr1 : Reg) (mode : BitVec 1) (imm5 : BitVec 5) :
    (op ++ regBits dr ++ regBits sr1 ++ mode ++ imm5 : Word) =
      place 12 op ||| place 9 (regBits dr) ||| place 6 (regBits sr1) ||| place 5 mode ||| place 0 imm5 :=
  (place_zero_word _).symm.trans ((place_append 0 _ _).trans (by simp only [place_append]))

/-- NOT (R93): two registers above six unused bits. -/
theorem twoRegisters_word (op : BitVec 4) (dr sr1 : Reg) (u : BitVec 6) :
    (op ++ regBits dr ++ regBits sr1 ++ u : Word) =
      place 12 op ||| place 9 (regBits dr) ||| place 6 (regBits sr1) ||| place 0 u :=
  (place_zero_word _).symm.trans ((place_append 0 _ _).trans (by simp only [place_append]))

end Sys2Proof

namespace Sys2Proof.Machine

variable {i : Instr} {s : State} {dr sr1 sr2 : Reg}

/-- An instruction that computes `f` of one source answers its result, or the fault of that source. -/
theorem exec_of_one_source (f : Word → Word)
    (hi : exec i s = s.readReg sr1 fun x => .next (s.writeResult dr (f x))) :
    (s.gpr[sr1].written = true → exec i s = .next (s.writeResult dr (f s.gpr[sr1].value))) ∧
    (s.gpr[sr1].written = false → exec i s = .next (s.unwrittenFault sr1)) :=
  ⟨fun h1 => by rw [hi, State.readReg_written h1], fun h1 => by rw [hi, State.readReg_unwritten h1, State.unwrittenFault]⟩

/-- An instruction that computes `f` of two sources answers its result, or the fault of the first unwritten one. -/
theorem exec_of_two_sources (f : Word → Word → Word)
    (hi : exec i s = s.readReg sr1 fun x => s.readReg sr2 fun y => .next (s.writeResult dr (f x y))) :
    (s.gpr[sr1].written = true → s.gpr[sr2].written = true →
      exec i s = .next (s.writeResult dr (f s.gpr[sr1].value s.gpr[sr2].value))) ∧
    (s.gpr[sr1].written = true → s.gpr[sr2].written = false → exec i s = .next (s.unwrittenFault sr2)) ∧
    (s.gpr[sr1].written = false → exec i s = .next (s.unwrittenFault sr1)) :=
  ⟨fun h1 h2 => by rw [hi, State.readReg_written h1, State.readReg_written h2],
    fun h1 h2 => by rw [hi, State.readReg_written h1, State.readReg_unwritten h2, State.unwrittenFault],
    fun h1 => by rw [hi, State.readReg_unwritten h1, State.unwrittenFault]⟩

/-- Settles O28: bit 5 of the Word chooses the mode, and each mode has one of the two shapes of reads. -/
theorem addResults : Obligations.AddResults := by
  intro dr sr1 sr2 u imm5 s
  obtain ⟨hsum, hfault2, hfault1⟩ := exec_of_two_sources (i := .addReg dr sr1 sr2 u) (· + ·) rfl
  obtain ⟨hsumImm, hfaultImm⟩ := exec_of_one_source (i := .addImm dr sr1 imm5) (· + sext imm5) rfl
  refine ⟨fun op hop => ?_, hsum, hfault2, hsumImm, fun h1 => ⟨hfault1 h1, hfaultImm h1⟩⟩
  rw [registerMode_word, immediateMode_word]
  simp [decode, opcodeOf, hop, regField_or, BitVec.extractLsb'_or, getLsbD_place, -BitVec.getLsbD_eq_getElem]

/-- Settles O29, as O28 with the bitwise and for the sum. -/
theorem andResults : Obligations.AndResults := by
  intro dr sr1 sr2 u imm5 s
  obtain ⟨hand, hfault2, hfault1⟩ := exec_of_two_sources (i := .andReg dr sr1 sr2 u) (· &&& ·) rfl
  obtain ⟨handImm, hfaultImm⟩ := exec_of_one_source (i := .andImm dr sr1 imm5) (· &&& sext imm5) rfl
  refine ⟨fun op hop => ?_, hand, hfault2, handImm, fun h1 => ⟨hfault1 h1, hfaultImm h1⟩⟩
  rw [registerMode_word, immediateMode_word]
  simp [decode, opcodeOf, hop, regField_or, BitVec.extractLsb'_or, getLsbD_place, -BitVec.getLsbD_eq_getElem]

/-- Settles O30: the complement is a function of the one source. -/
theorem notResult : Obligations.NotResult := by
  intro dr sr1 u s
  obtain ⟨hnot, hfault⟩ := exec_of_one_source (i := .not dr sr1 u) (~~~ ·) rfl
  refine ⟨fun op hop => ?_, hnot, hfault⟩
  simp [twoRegisters_word, decode, opcodeOf, hop, regField_or, BitVec.extractLsb'_or]

end Sys2Proof.Machine

/-! PROOFS. Control transfer (spec/41_control.md R140-R143). JMP, RET and JSRR each read one base and go to it, so what
they answer is said once for the three, over the state in which the base is read. -/

namespace Sys2Proof

/-! ### The Words of the control formats as placed fields (spec/30_encoding.md R93) -/

/-- BR (R93): the three bits of the mask above the offset. -/
theorem branch_word (op : BitVec 4) (n z p : Bool) (off9 : BitVec 9) :
    (op ++ BitVec.ofBool n ++ BitVec.ofBool z ++ BitVec.ofBool p ++ off9 : Word) =
      place 12 op ||| place 11 (BitVec.ofBool n) ||| place 10 (BitVec.ofBool z) ||| place 9 (BitVec.ofBool p) |||
        place 0 off9 :=
  (place_zero_word _).symm.trans ((place_append 0 _ _).trans (by simp only [place_append]))

/-- JMP and RET (R93): the base between two unused fields. -/
theorem jump_word (op : BitVec 4) (hi : BitVec 3) (base : Reg) (lo : BitVec 6) :
    (op ++ hi ++ regBits base ++ lo : Word) = place 12 op ||| place 9 hi ||| place 6 (regBits base) ||| place 0 lo :=
  (place_zero_word _).symm.trans ((place_append 0 _ _).trans (by simp only [place_append]))

/-- JSR (R93), the mode bit in bit 11. -/
theorem jsr_word (op : BitVec 4) (mode : BitVec 1) (off11 : BitVec 11) :
    (op ++ mode ++ off11 : Word) = place 12 op ||| place 11 mode ||| place 0 off11 :=
  (place_zero_word _).symm.trans ((place_append 0 _ _).trans (by simp only [place_append]))

/-- JSRR (R93), the mode bit in bit 11. -/
theorem jsrr_word (op : BitVec 4) (mode : BitVec 1) (hi : BitVec 2) (base : Reg) (lo : BitVec 6) :
    (op ++ mode ++ hi ++ regBits base ++ lo : Word) =
      place 12 op ||| place 11 mode ||| place 9 hi ||| place 6 (regBits base) ||| place 0 lo :=
  (place_zero_word _).symm.trans ((place_append 0 _ _).trans (by simp only [place_append]))

end Sys2Proof

namespace Sys2Proof.Machine

variable {i : Instr} {s u : State} {base : Reg}

/-- With COND unset, BR with a mask that is not zero faults (R39). -/
theorem exec_br_of_unset (hc : s.cond.written = false) {n z p : Bool} (hmask : (n || z || p) = true)
    (off9 : BitVec 9) : exec (.br n z p off9) s = .next (s.enter (.faulted .unsetCond s.instrAddr)) := by
  change execBr n z p off9 s = _
  rw [execBr, if_pos hmask, if_neg (by simp [hc]), State.raiseFault]

/-- An instruction that prepares the state `u` and then jumps to a register of `u` goes to that register's value, or
leaves the register's fault in `u`. -/
theorem exec_of_jump (hi : exec i s = u.readReg base fun target => .next (u.setPc target)) :
    (u.gpr[base].written = true → exec i s = .next (u.setPc u.gpr[base].value)) ∧
    (u.gpr[base].written = false → exec i s = .next (u.unwrittenFault base)) :=
  ⟨fun hb => by rw [hi, State.readReg_written hb],
    fun hb => by rw [hi, State.readReg_unwritten hb, State.unwrittenFault]⟩

/-- Settles O31: COND decides between the fault (`exec_br_of_unset`) and the test of the mask (`exec_br_of_written`). -/
theorem branchResult : Obligations.BranchResult := by
  intro n z p off9 s
  refine ⟨fun op hop => ?_, rfl, fun hmask hc => exec_br_of_unset hc hmask off9, fun _ hc => ?_⟩
  · rw [branch_word]
    simp [decode, opcodeOf, hop, BitVec.extractLsb'_or, getLsbD_place, -BitVec.getLsbD_eq_getElem]
  · rw [exec_br_of_written hc]
    simp [branchTaken, nzpMask]

/-- Settles O33: JMP and RET are jumps with nothing before them. -/
theorem jumpResult : Obligations.JumpResult := by
  intro hi base lo s
  obtain ⟨hjmp, hjmpFault⟩ := exec_of_jump (i := .jmp hi base lo) (s := s) rfl
  obtain ⟨hret, hretFault⟩ := exec_of_jump (i := .ret) (s := s) rfl
  refine ⟨fun op hop => ?_, hjmp, hjmpFault, hret, hretFault⟩
  rw [jump_word]
  simp [decode, decodeJmp, opcodeOf, hop, regField_or, BitVec.extractLsb'_or]

/-- Settles O34: JSRR is the jump after the link, which sets R7 to `pc1` and leaves the other registers. -/
theorem subroutineCallResults : Obligations.SubroutineCallResults := by
  intro off11 hi base lo s
  obtain ⟨hjump, hfault⟩ := exec_of_jump (i := .jsrr hi base lo) (s := s) (u := s.link) rfl
  obtain ⟨hjump7, -⟩ := exec_of_jump (i := .jsrr hi 7 lo) (s := s) (u := s.link) rfl
  refine ⟨fun op hop => ⟨?_, ?_⟩, rfl, ?_, fun hne hb => ?_, fun hne hb => ?_⟩
  · rw [jsr_word]
    simp [decode, opcodeOf, hop, BitVec.extractLsb'_or, getLsbD_place, -BitVec.getLsbD_eq_getElem]
  · rw [jsrr_word]
    simp [decode, opcodeOf, hop, regField_or, BitVec.extractLsb'_or, getLsbD_place, -BitVec.getLsbD_eq_getElem]
  · rw [State.link_gpr_seven] at hjump7
    exact hjump7 rfl
  · rw [State.link_gpr_of_ne hne] at hjump
    exact hjump hb
  · rw [State.link_gpr_of_ne hne] at hfault
    exact hfault hb

end Sys2Proof.Machine

/-! PROOFS. Loads and LEA (spec/42_load.md R160-R163). Every load ends by putting a Word that was read into DR, so what
that end leaves is said once, over the state before the read; LEA writes its address as an operate instruction does. -/

namespace Sys2Proof

/-- LD, LDI, LEA, ST and STI (R93): a register above a PC-relative offset. -/
theorem registerOffset_word (op : BitVec 4) (r : Reg) (off9 : BitVec 9) :
    (op ++ regBits r ++ off9 : Word) = place 12 op ||| place 9 (regBits r) ||| place 0 off9 :=
  (place_zero_word _).symm.trans ((place_append 0 _ _).trans (by simp only [place_append]))

end Sys2Proof

namespace Sys2Proof.Machine

/-- A load leaves the state after its read but for DR, which holds the Word read, and COND, which is set from it. The
registers and the COND values are those from before the read, which changes neither. -/
theorem State.loadInto_eq_memRead (s : State) (dr : Reg) (a : Word) :
    s.loadInto dr a = { (s.memRead a).2 with
      gpr := s.gpr.set dr ⟨(s.memRead a).1, true⟩, cond := ⟨condOf s.params (s.memRead a).1, true⟩ } := by
  rw [← s.touch_gpr a, ← s.touch_params a]
  rfl

/-- An instruction that reads one register and then goes to the state `f` gives for its value answers that state, or
leaves the register's fault. -/
theorem exec_of_one_read {i : Instr} {s : State} {r : Reg} (f : Word → State)
    (hi : exec i s = s.readReg r fun x => .next (f x)) :
    (s.gpr[r].written = true → exec i s = .next (f s.gpr[r].value)) ∧
    (s.gpr[r].written = false → exec i s = .next (s.unwrittenFault r)) :=
  ⟨fun hr => by rw [hi, State.readReg_written hr], fun hr => by rw [hi, State.readReg_unwritten hr, State.unwrittenFault]⟩

/-- Settles O39: LD is one read and a load's end. LDI is a load's end in the state that the pointer's read leaves, which
has the registers and parameters of the state before. -/
theorem ldAndLdiResults : Obligations.LdAndLdiResults := by
  intro dr off9 s
  refine ⟨fun op hop => ?_, fun op hop => ?_, _, _, rfl, rfl, ?_, ?_⟩
  · simp [registerOffset_word, decode, opcodeOf, hop, regField_or, BitVec.extractLsb'_or]
  · simp [registerOffset_word, decode, opcodeOf, hop, regField_or, BitVec.extractLsb'_or]
  · exact congrArg Host.Outcome.next (s.loadInto_eq_memRead dr _)
  · have hload := (s.memRead (s.pc + sext off9)).2.loadInto_eq_memRead dr (s.memRead (s.pc + sext off9)).1
    rw [State.memRead_snd s, State.touch_gpr s, State.touch_params s] at hload
    exact congrArg Host.Outcome.next hload

/-- Settles O40: the base is read first, and its mark decides between its fault and a load's end. -/
theorem ldrResult : Obligations.LdrResult := by
  intro dr base off6 s
  obtain ⟨hload, hfault⟩ := exec_of_one_read (i := .ldr dr base off6) (s := s)
    (fun x => s.loadInto dr (x + sext off6)) rfl
  refine ⟨fun op hop => ?_, fun hb => ⟨_, rfl, ?_⟩, hfault⟩
  · simp [twoRegisters_word, decode, opcodeOf, hop, regField_or, BitVec.extractLsb'_or]
  · rw [hload hb, State.loadInto_eq_memRead]

/-- Settles O41: LEA is one `writeResult` of the address, in the state it starts from. -/
theorem leaResult : Obligations.LeaResult := by
  intro dr off9 s
  refine ⟨fun op hop => ?_, rfl⟩
  simp [registerOffset_word, decode, opcodeOf, hop, regField_or, BitVec.extractLsb'_or]

end Sys2Proof.Machine

/-! PROOFS. Stores (spec/43_store.md R180-R183). A store reads its registers, SR first, and then writes one Word; what a
load reads after it is the Word stored, but at `KBSR_ADDR`, where the load's poll writes its own value first. -/

namespace Sys2Proof.Machine

variable {s : State}

/-- A store is seen at its own address (R64). -/
theorem State.memPeek_memWrite_self (hm : s.mem.wf = true) (a v : Word) : (s.memWrite a v).memPeek a = v :=
  Memory.read_write_self hm a.toNat v

/-- A read at `KBSR_ADDR` gives what its own poll wrote there (R65): one of two values, as a key's byte goes to KBDR. -/
theorem State.memRead_kbsr {a : Word} (hm : s.mem.wf = true) (hne : s.params.kbsrAddr ≠ s.params.kbdrAddr)
    (ha : a = s.params.kbsrAddr) : (s.memRead a).1 = s.params.kbsrReady ∨ (s.memRead a).1 = 0x0000#16 := by
  rw [State.memRead_fst, State.touch_kbsr ha, ha]
  rcases s.kbdPoll_cases with ⟨b, rest, -, hkey⟩ | hnone
  · left
    rw [hkey, State.memPeek_memWrite_of_ne _ _ hne]
    exact State.memPeek_memWrite_self hm _ _
  · right
    rw [hnone]
    exact State.memPeek_memWrite_self hm _ _

/-- Settles O38: away from `KBSR_ADDR` the load is a peek at the Word stored; there it polls in the state that the store
leaves, whose memory is canonical too. -/
theorem loadAfterStore : Obligations.LoadAfterStore := by
  refine fun s a v hm hlegal => ⟨fun ha => ?_,
    State.memRead_kbsr (s := s.memWrite a v) (Memory.wf_write_word hm a v) hlegal.keyboard⟩
  rw [State.memRead_of_ne (s := s.memWrite a v) ha]
  exact State.memPeek_memWrite_self hm a v

/-- STR reads SR first and then the base (R182). -/
theorem exec_str (sr base : Reg) (off6 : BitVec 6) (s : State) :
    exec (.str sr base off6) s = s.readReg sr fun v => s.readReg base fun b => .next (s.memWrite (baseOff6 b off6) v) :=
  rfl

/-- Settles O42: ST reads SR alone. STR with SR written is an instruction that reads the base alone; with SR unwritten it
faults whatever the base is. -/
theorem directStoreResults : Obligations.DirectStoreResults := by
  intro sr base off9 off6 s
  obtain ⟨hst, hstFault⟩ := exec_of_one_read (i := .st sr off9) (s := s) (s.memWrite (pcRel9 s.pc off9)) rfl
  have hstr (hsr : s.gpr[sr].written = true) := exec_of_one_read (i := .str sr base off6) (s := s) (r := base)
    (fun b => s.memWrite (baseOff6 b off6) s.gpr[sr].value) (by rw [exec_str, State.readReg_written hsr])
  have hstrFault (hsr : s.gpr[sr].written = false) : exec (.str sr base off6) s = .next (s.unwrittenFault sr) := by
    rw [exec_str, State.readReg_unwritten hsr, State.unwrittenFault]
  refine ⟨fun op hop => ?_, fun op hop => ?_, hst, fun hsr => (hstr hsr).1, fun hsr => (hstr hsr).2,
    fun hsr => ⟨hstFault hsr, hstrFault hsr⟩⟩
  · simp [registerOffset_word, decode, opcodeOf, hop, regField_or, BitVec.extractLsb'_or]
  · simp [twoRegisters_word, decode, opcodeOf, hop, regField_or, BitVec.extractLsb'_or]

/-- Settles O43: the pointer's `MemRead` comes after the read of SR, so a fault leaves the keyboard unpolled. -/
theorem stiResult : Obligations.StiResult := by
  intro sr off9 s
  obtain ⟨hsti, hfault⟩ := exec_of_one_read (i := .sti sr off9) (s := s)
    ((s.memRead (pcRel9 s.pc off9)).2.memWrite (s.memRead (pcRel9 s.pc off9)).1) rfl
  refine ⟨fun op hop => ?_, fun hsr => ⟨_, rfl, hsti hsr⟩, hfault⟩
  simp [registerOffset_word, decode, opcodeOf, hop, regField_or, BitVec.extractLsb'_or]

end Sys2Proof.Machine

/-! PROOFS. TRAP and the service routines (spec/44_trap.md R200-R213). The link comes first in each, so a routine is
read in the linked state. A string scan is followed read by read: once for the strings that end, and once, over the laps
of the address space, for those that do not. -/

namespace Sys2Proof

/-! ### The Words of TRAP and its vectors (spec/30_encoding.md R93, R201) -/

/-- A TRAP Word is the instruction its vector selects. -/
theorem decode_trap {m : OpcodeMap} {op : BitVec 4} (hop : m.opcode op = .trap) (u : BitVec 4) (vect : BitVec 8) :
    decode m (op ++ u ++ vect) = decodeTrap u vect := by
  have hword : (op ++ u ++ vect : Word) = place 12 op ||| place 8 u ||| place 0 vect :=
    (place_zero_word _).symm.trans ((place_append 0 _ _).trans (by simp only [place_append]))
  simp [hword, decode, opcodeOf, hop, BitVec.extractLsb'_or]

/-- The six routines have the vectors 0x20 to 0x25, so a TRAP with any other is well formed. -/
theorem wellFormed_trap_of_range {u : BitVec 4} {vect : BitVec 8} (h : vect.toNat < 0x20 ∨ 0x25 < vect.toNat) :
    (Instr.trap u vect).wellFormed = true := by
  rw [wellFormed_trap]
  refine ⟨?_, ?_, ?_, ?_, ?_, ?_⟩ <;> rintro rfl <;> simp at h

end Sys2Proof

namespace Sys2Proof.Machine

variable {i : Instr} {s t : State}

/-! ### The link (spec/44_trap.md R200) -/

/-- R7 is written first and no routine writes it again. -/
theorem exec_isTrap_gpr_seven (hi : i.wellFormed = true) (htrap : i.isTrap = true) (h : exec i s = .next t) :
    t.gpr[(7 : Reg)] = ⟨s.pc, true⟩ := by
  have hinput {b : State} (hb : b.gpr[(7 : Reg)] = ⟨s.pc, true⟩) (echo : Bool) (wait : Phase) :
      (b.takeInput echo wait).gpr[(7 : Reg)] = ⟨s.pc, true⟩ := by
    obtain ⟨-, -, -, -, -, -, hgpr⟩ := b.takeInput_frame echo wait
    rw [hgpr 7 (by decide), hb]
  have hscan {v : State} (hv : ScanEnd s.link v) : v.gpr[(7 : Reg)] = ⟨s.pc, true⟩ := by
    rw [hv.core.gpr, State.link_gpr_seven]
  cases i <;> cases htrap
  case trap =>
    obtain rfl := Host.Outcome.next.inj ((execTrap_of_wellFormed hi s).symm.trans h)
    exact State.link_gpr_seven
  case getc => rw [execGetc_inv h]; exact hinput State.link_gpr_seven ..
  case inp => rw [execInp_inv h]; exact hinput (b := (s.link.put s.params.inPrompt).flush) State.link_gpr_seven ..
  case out => rcases execOut_inv h with rfl | ⟨-, rfl⟩ <;> exact State.link_gpr_seven
  case puts =>
    rcases execPuts_inv h with rfl | ⟨-, rfl⟩
    · exact hscan (.putsFrom ..)
    · exact State.link_gpr_seven
  case putsp =>
    rcases execPutsp_inv h with rfl | ⟨-, rfl⟩
    · exact hscan (.putspFrom ..)
    · exact State.link_gpr_seven
  case halt => rw [execHalt_inv h]; exact State.link_gpr_seven

/-- Settles O44: the Words are `decode_trap`, the link `exec_isTrap_gpr_seven`; the PC and COND are left by the frame of
the traps (O26), and the dispatch at a routine's vector is that routine by evaluation. -/
theorem trapLinksAndDispatches : Obligations.TrapLinksAndDispatches := by
  refine ⟨fun m op u hop => ?_, fun i s t hi htrap h => ?_, fun u s => ⟨rfl, rfl, rfl, rfl, rfl, rfl⟩,
    fun u vect s hvect => ⟨_, execTrap_of_wellFormed (u := u) (wellFormed_trap_of_range hvect) s, rfl⟩⟩
  · exact ⟨decode_trap hop u _, decode_trap hop u _, decode_trap hop u _, decode_trap hop u _, decode_trap hop u _,
      decode_trap hop u _, fun vect hvect =>
        (decode_trap hop u vect).trans (decodeTrap_of_wellFormed (wellFormed_trap_of_range hvect))⟩
  · obtain ⟨-, hcond, hpc, -⟩ := frameOfTraps i s t hi htrap h
    exact ⟨exec_isTrap_gpr_seven hi htrap h, hpc, hcond⟩

/-- Settles O53: such a TRAP is well formed, so it decodes to itself and goes to the unhandled routine. -/
theorem unhandledTrapHalts : Obligations.UnhandledTrapHalts := fun u vect s hvect =>
  ⟨fun _ hop => (decode_trap hop u vect).trans (decodeTrap_of_wellFormed (wellFormed_trap_of_range hvect)),
    execTrap_of_wellFormed (u := u) (wellFormed_trap_of_range hvect) s⟩

/-- Settles O52: HALT has no branch, so the state it leaves is read off by evaluation. -/
theorem haltResult : Obligations.HaltResult := fun u _ =>
  ⟨fun _ hop => decode_trap hop u 0x25#8, _, rfl, rfl, rfl, rfl⟩

/-- An instruction that reads R0 after the link goes on with the R0 from before it, or leaves its fault in the linked
state. -/
theorem exec_of_linked_read (f : Word → State) (hi : exec i s = s.link.readReg 0 fun x => .next (f x)) :
    (s.gpr[(0 : Reg)].written = true → exec i s = .next (f s.gpr[(0 : Reg)].value)) ∧
    (s.gpr[(0 : Reg)].written = false → exec i s = .next (s.link.unwrittenFault 0)) := by
  have h0 : s.link.gpr[(0 : Reg)] = s.gpr[(0 : Reg)] := State.link_gpr_of_ne (by decide)
  rw [← h0]
  exact ⟨fun hw => by rw [hi, State.readReg_written hw],
    fun hw => by rw [hi, State.readReg_unwritten hw, State.unwrittenFault]⟩

/-- Bytes put and delivered. -/
theorem State.flush_put (s : State) (bs : List Byte) :
    (s.put bs).flush = { s with console := { s.console with
      output := s.console.output ++ bs, delivered := s.console.output.length + bs.length } } := by
  simp only [State.flush, State.put, State.withConsole, Console.flush, Console.put, List.length_append]

/-- Settles O47: OUT reads R0 in the linked state. -/
theorem outResult : Obligations.OutResult := by
  intro u s
  obtain ⟨hout, hfault⟩ := exec_of_linked_read (i := .out u) (s := s) (fun v => (s.link.put [lowByte v]).flush) rfl
  refine ⟨fun op hop => decode_trap hop u 0x21#8, fun hw => (hout hw).trans ?_, hfault⟩
  exact congrArg Host.Outcome.next (s.link.flush_put [lowByte s.gpr[(0 : Reg)].value])

/-! ### Console input (spec/44_trap.md R202, R205, R209, R211) -/

/-- What answers the console read of GETC and IN answers a state for each of the console's three answers. -/
theorem takeInput_results {x : Result} {echo : Bool} {wait : Phase} (hx : x = .next (s.takeInput echo wait)) (b : Byte)
    (rest : List Byte) :
    (s.console.input = b :: rest → x = .next
      ((if echo then (((s.withConsole { s.console with input := rest }).setPhase .idle).put [b]).flush
        else (s.withConsole { s.console with input := rest }).setPhase .idle).writeReg 0 (zext8 b))) ∧
    (s.console.input = [] → s.console.inputEnded = true →
      x = .next ((s.setPhase .idle).writeReg 0 s.params.eofSentinel)) ∧
    (s.console.input = [] → s.console.inputEnded = false → x = .next (s.setPhase wait)) := by
  subst hx
  refine ⟨fun hin => ?_, fun hin hended => ?_, fun hin hended => ?_⟩
  · simp only [State.takeInput, Console.getc, hin]
  · simp only [State.takeInput, Console.getc, hin, hended]
    rfl
  · simp [State.takeInput, Console.getc, hin, hended]

theorem State.setPhase_self {w : Phase} (h : s.phase = w) : s.setPhase w = s := by
  subst h
  rfl

/-- A waiting GETC goes on with its console read. -/
theorem step_of_getc (he : s.engine = .running) (ha : s.abortSignal = false) (hp : s.phase = .getc) :
    step s = .next (s.takeInput false .getc) := by
  simp [step, he, hp, ha, State.getcRoutine]

/-- A waiting IN goes on with its console read, the prompt put before. -/
theorem step_of_inp (he : s.engine = .running) (ha : s.abortSignal = false) (hp : s.phase = .inp) :
    step s = .next (s.takeInput true .inp) := by
  simp [step, he, hp, ha, State.inpRead]

/-- Settles O45: GETC is the console read in the linked state, and a step of its wait is the same read again. -/
theorem getcResult : Obligations.GetcResult := by
  refine fun u s b rest => ⟨fun hidle => ?_, fun he ha hp => ?_⟩
  · obtain ⟨hbyte, hended, hwait⟩ := takeInput_results (x := exec (.getc u) s) (s := s.link) rfl b rest
    rw [← hidle] at hbyte hended
    exact ⟨hbyte, hended, hwait⟩
  · obtain ⟨hbyte, hended, hwait⟩ := takeInput_results (step_of_getc he ha hp) b rest
    rw [State.setPhase_self hp] at hwait
    exact ⟨hwait, hended, hbyte⟩

/-- Settles O46: as O45, but the first read is in the linked state with the prompt delivered. -/
theorem inResult : Obligations.InResult := by
  refine fun u s b rest => ⟨fun hidle => ?_, fun he ha hp => ?_⟩
  · obtain ⟨hbyte, hended, hwait⟩ := takeInput_results (x := exec (.inp u) s)
      (s := (s.link.put s.params.inPrompt).flush) rfl b rest
    rw [← hidle] at hbyte hended
    exact ⟨hbyte, hended, hwait⟩
  · obtain ⟨hbyte, hended, hwait⟩ := takeInput_results (step_of_inp he ha hp) b rest
    rw [State.setPhase_self hp] at hwait
    exact ⟨hwait, hended, hbyte⟩

/-! ### String scans, read by read (spec/44_trap.md R204, R206, R210) -/

/-- A scan whose first `n` reads, from the states `σ 0` to `σ (n - 1)`, meet no terminator has reached `σ n`. -/
theorem scan_of_reads {scan : Nat → Word → State → Scan} {p : Word} {σ : Nat → State} (m : Nat) :
    ∀ n, (∀ k, k < n → ∀ j, scan (j + 1) (p + BitVec.ofNat 16 k) (σ k) =
        scan j (p + BitVec.ofNat 16 k + 1#16) (σ (k + 1))) →
      scan (n + m) p (σ 0) = scan m (p + BitVec.ofNat 16 n) (σ n) := by
  intro n
  induction n generalizing m with
  | zero => intro _; simp
  | succ n ih =>
    intro hread
    rw [Nat.add_right_comm, Nat.add_assoc, ih (m + 1) fun k hk => hread k (by omega), hread n (by omega),
      BitVec.add_assoc, BitVec.ofNat_add]

/-! What one read does, by the Word it gives. -/

section Read

variable {n : Nat} {p w : Word}

theorem putsScan_succ_of_zero (h : s.strRead p = (0x0000#16, t)) : putsScan (n + 1) p s = .ended t := by
  rw [putsScan, h, if_pos rfl]

theorem putsScan_succ_of_ne (h : s.strRead p = (w, t)) (hw : w ≠ 0x0000#16) :
    putsScan (n + 1) p s = putsScan n (p + 1#16) (t.put [lowByte w]) := by
  rw [putsScan, h, if_neg hw]

theorem putspScan_succ_of_low_zero (h : s.strRead p = (w, t)) (hlow : lowByte w = 0x00#8) :
    putspScan (n + 1) p s = .ended t := by
  rw [putspScan, h, if_pos hlow]

theorem putspScan_succ_of_high_zero (h : s.strRead p = (w, t)) (hlow : lowByte w ≠ 0x00#8)
    (hhigh : highByte w = 0x00#8) : putspScan (n + 1) p s = .ended (t.put [lowByte w]) := by
  rw [putspScan, h, if_neg hlow, if_pos hhigh]

theorem putspScan_succ_of_ne (h : s.strRead p = (w, t)) (hlow : lowByte w ≠ 0x00#8) (hhigh : highByte w ≠ 0x00#8) :
    putspScan (n + 1) p s = putspScan n (p + 1#16) (t.put [lowByte w, highByte w]) := by
  rw [putspScan, h, if_neg hlow, if_neg hhigh]

end Read

/-- Settles O50: `scan_of_reads` brings the scan to its last read, which ends it within the first lap. -/
theorem stringRoutinesFollowTheirReads : Obligations.StringRoutinesFollowTheirReads := by
  intro u s p n σ hr0 hn hσ
  change σ 0 = s.link at hσ
  obtain ⟨m, hlap⟩ : ∃ m, scanLap = n + (m + 1) := Nat.exists_eq_add_of_lt hn
  obtain ⟨hputs, -⟩ := exec_of_linked_read (i := .puts u) (s := s) s.link.putsFrom rfl
  obtain ⟨hputsp, -⟩ := exec_of_linked_read (i := .putsp u) (s := s) s.link.putspFrom rfl
  rw [hr0] at hputs hputsp
  rw [hputs rfl, hputsp rfl, State.putsFrom, State.putspFrom, hlap, ← hσ]
  refine ⟨fun hreads t hend => ?_, fun hreads w t out hend hout => ?_⟩
  · rw [scan_of_reads (scan := putsScan) (m + 1) n, putsScan_succ_of_zero hend]
    · rfl
    · intro k hk j
      obtain ⟨w, v, hread, hw, hnext⟩ := hreads k hk
      rw [hnext]
      exact putsScan_succ_of_ne hread hw
  · rw [scan_of_reads (scan := putspScan) (m + 1) n]
    · rcases hout with ⟨hlow, rfl⟩ | ⟨hlow, hhigh, rfl⟩
      · rw [putspScan_succ_of_low_zero hend hlow]; rfl
      · rw [putspScan_succ_of_high_zero hend hlow hhigh]; rfl
    · intro k hk j
      obtain ⟨w, v, hread, hlow, hhigh, hnext⟩ := hreads k hk
      rw [hnext]
      exact putspScan_succ_of_ne hread hlow hhigh

/-! ### Strings in memory -/

/-- The byte of a Word that PUTS prints (R204). -/
def putsBytes (w : Word) : List Byte := [lowByte w]

/-- The bytes of a Word that PUTSP prints, low byte first (R206). -/
def putspBytes (w : Word) : List Byte := [lowByte w, highByte w]

/-- What `bytes` gives for each of the `n` Words from address `p` up, wrapping at 0xFFFF. -/
def State.stringBytes (s : State) (bytes : Word → List Byte) (p : Word) (n : Nat) : List Byte :=
  (List.range n).flatMap fun k => bytes (s.memPeek (p + BitVec.ofNat 16 k))

/-- `s` with the bytes of those Words put. -/
def State.putString (s : State) (bytes : Word → List Byte) (p : Word) (n : Nat) : State :=
  s.put (s.stringBytes bytes p n)

theorem State.put_put (s : State) (bs cs : List Byte) : (s.put bs).put cs = s.put (bs ++ cs) := by
  simp only [State.put, State.withConsole, Console.put, List.append_assoc]

theorem State.put_nil (s : State) : s.put [] = s := by
  simp only [State.put, State.withConsole, Console.put, List.append_nil]

theorem State.putString_zero (s : State) (bytes : Word → List Byte) (p : Word) : s.putString bytes p 0 = s := s.put_nil

theorem State.putString_succ (s : State) (bytes : Word → List Byte) (p : Word) (n : Nat) :
    s.putString bytes p (n + 1) = (s.putString bytes p n).put (bytes (s.memPeek (p + BitVec.ofNat 16 n))) := by
  simp [State.putString, State.stringBytes, State.put_put, List.range_succ, List.flatMap_append]

theorem State.stringBytes_putsBytes (s : State) (p : Word) (n : Nat) :
    s.stringBytes putsBytes p n = (List.range n).map fun k => lowByte (s.memPeek (p + BitVec.ofNat 16 k)) :=
  List.flatMap_pure_eq_map _ _

/-- `n` Words of at least one byte each are at least `n` bytes. -/
theorem State.le_length_stringBytes {bytes : Word → List Byte} (hbytes : ∀ w, 1 ≤ (bytes w).length) (s : State)
    (p : Word) (n : Nat) : n ≤ (s.stringBytes bytes p n).length := by
  have hsum := List.length_le_sum_of_one_le
    ((List.range n).map fun k => (bytes (s.memPeek (p + BitVec.ofNat 16 k))).length)
    (by simpa using fun k _ => hbytes _)
  simpa [State.stringBytes, List.length_flatMap] using hsum

/-- Output changes nothing that a string read looks at, so where it does not poll it reads the same Word. -/
theorem State.strRead_putString {q : Word} (h : s.params.stringReadPolls = false ∨ q ≠ s.params.kbsrAddr)
    (bytes : Word → List Byte) (p : Word) (n : Nat) :
    (s.putString bytes p n).strRead q = (s.memPeek q, s.putString bytes p n) :=
  State.strRead_peek (s := s.putString bytes p n) h

/-- Settles O48: where no read polls, the states of O50 are those with the bytes read so far put. -/
theorem putsPrintsTheString : Obligations.PutsPrintsTheString := by
  intro u s p n hidle
  obtain ⟨-, hfault⟩ := exec_of_linked_read (i := .puts u) (s := s) s.link.putsFrom rfl
  refine ⟨fun op hop => decode_trap hop u 0x22#8, fun hr0 hn hpeek hne hend => ?_, hfault⟩
  have hread (k : Nat) (hk : k ≤ n) := State.strRead_putString (s := s.link) (q := p + BitVec.ofNat 16 k)
    (hpeek.imp_right fun h => h k hk) putsBytes p k
  obtain ⟨hputs, -⟩ := stringRoutinesFollowTheirReads u s p n (s.link.putString putsBytes p) hr0 hn
    (s.link.putString_zero putsBytes p)
  have hbytes : s.link.stringBytes putsBytes p n =
      (List.range n).map fun k => (s.memPeek (p + BitVec.ofNat 16 k)).extractLsb' 0 8 :=
    s.link.stringBytes_putsBytes p n
  rw [hputs (fun k hk => ⟨_, _, hread k hk.le, hne k hk, s.link.putString_succ putsBytes p k⟩) _
    ((hread n le_rfl).trans (congrArg (·, _) hend)), ← hidle]
  refine congrArg Host.Outcome.next ((s.link.flush_put (s.link.stringBytes putsBytes p n)).trans ?_)
  rw [hbytes, List.length_map, List.length_range]
  rfl

/-- Settles O49, as O48; the last Word ends the string in its low byte, or is printed for half and ends it in the high
one. -/
theorem putspPrintsThePackedString : Obligations.PutspPrintsThePackedString := by
  intro u s p n hidle
  obtain ⟨-, hfault⟩ := exec_of_linked_read (i := .putsp u) (s := s) s.link.putspFrom rfl
  refine ⟨fun op hop => decode_trap hop u 0x24#8, fun hr0 hn hpeek hne hend => ⟨_, rfl, ?_⟩, hfault⟩
  have hread (k : Nat) (hk : k ≤ n) := State.strRead_putString (s := s.link) (q := p + BitVec.ofNat 16 k)
    (hpeek.imp_right fun h => h k hk) putspBytes p k
  obtain ⟨-, hputsp⟩ := stringRoutinesFollowTheirReads u s p n (s.link.putString putspBytes p) hr0 hn
    (s.link.putString_zero putspBytes p)
  rw [hputsp (fun k hk => ⟨_, _, hread k hk.le, (hne k hk).1, (hne k hk).2, s.link.putString_succ putspBytes p k⟩) _ _ _
    (hread n le_rfl) ?_, ← hidle]
  · rfl
  · by_cases hlow : (s.memPeek (p + BitVec.ofNat 16 n)).extractLsb' 0 8 = 0x00#8
    · exact .inl ⟨hlow, by rw [if_pos hlow, List.append_nil]; rfl⟩
    · exact .inr ⟨hlow, hend.resolve_left hlow, by rw [if_neg hlow]; rfl⟩

/-! ### Strings without an end (spec/44_trap.md R213) -/

/-- A scan that goes on at every read has read a lap and stands at the address it began at. -/
theorem scan_lap {scan : Nat → Word → State → Scan} {p : Word} {σ : Nat → State}
    (hdone : ∀ q v, scan 0 q v = .going q v)
    (hread : ∀ k j, scan (j + 1) (p + BitVec.ofNat 16 k) (σ k) = scan j (p + BitVec.ofNat 16 k + 1#16) (σ (k + 1))) :
    scan scanLap p (σ 0) = .going p (σ scanLap) := by
  have hreads := scan_of_reads (scan := scan) (σ := σ) 0 scanLap fun k _ => hread k
  have hwrap : BitVec.ofNat 16 scanLap = 0#16 := rfl
  rwa [Nat.add_zero, hdone, hwrap, BitVec.add_zero] at hreads

theorem State.putsFrom_endless (hpolls : s.params.stringReadPolls = false) (hmem : ∀ a, s.memPeek a ≠ 0x0000#16)
    (p : Word) : s.putsFrom p = (s.putString putsBytes p scanLap).setPhase (.puts p) := by
  have hscan := scan_lap (scan := putsScan) (p := p) (σ := s.putString putsBytes p) (fun _ _ => rfl) fun k j => by
    rw [State.putString_succ]
    exact putsScan_succ_of_ne (State.strRead_putString (.inl hpolls) ..) (hmem _)
  rw [State.putString_zero] at hscan
  rw [State.putsFrom, hscan, Scan.finish]

theorem State.putspFrom_endless (hpolls : s.params.stringReadPolls = false)
    (hmem : ∀ a, lowByte (s.memPeek a) ≠ 0x00#8 ∧ highByte (s.memPeek a) ≠ 0x00#8) (p : Word) :
    s.putspFrom p = (s.putString putspBytes p scanLap).setPhase (.putsp p) := by
  have hscan := scan_lap (scan := putspScan) (p := p) (σ := s.putString putspBytes p) (fun _ _ => rfl) fun k j => by
    rw [State.putString_succ]
    exact putspScan_succ_of_ne (State.strRead_putString (.inl hpolls) ..) (hmem _).1 (hmem _).2
  rw [State.putString_zero] at hscan
  rw [State.putspFrom, hscan, Scan.finish]

theorem step_of_puts {p : Word} (he : s.engine = .running) (hp : s.phase = .puts p) :
    step s = .next (s.putsFrom p) := by
  simp only [step, he, hp]

theorem step_of_putsp {p : Word} (he : s.engine = .running) (hp : s.phase = .putsp p) :
    step s = .next (s.putspFrom p) := by
  simp only [step, he, hp]

/-- `t` is `s` in phase `w` with `n` laps of bytes or more put. -/
def InLaps (s : State) (w : Phase) (n : Nat) (t : State) : Prop :=
  ∃ bs, t = (s.put bs).setPhase w ∧ scanLap * n ≤ bs.length

theorem InLaps.start (s : State) : InLaps s s.phase 0 s :=
  ⟨[], s.put_nil.symm, Nat.zero_le _⟩

/-- A lap with a byte or more for every Word. -/
theorem InLaps.putString {w : Phase} {n : Nat} (h : InLaps s w n t) {bytes : Word → List Byte}
    (hbytes : ∀ v, 1 ≤ (bytes v).length) (p : Word) (w' : Phase) :
    InLaps s w' (n + 1) ((t.putString bytes p scanLap).setPhase w') := by
  have hlap := t.le_length_stringBytes hbytes p scanLap
  obtain ⟨bs, rfl, hlen⟩ := h
  refine ⟨bs ++ ((s.put bs).setPhase w).stringBytes bytes p scanLap, ?_, ?_⟩
  · rw [← State.put_put]
    rfl
  · rw [List.length_append, Nat.mul_succ]
    exact Nat.add_le_add hlen hlap

theorem InLaps.putsFrom {w : Phase} {n : Nat} (hpolls : s.params.stringReadPolls = false)
    (hmem : ∀ a, s.memPeek a ≠ 0x0000#16) (p : Word) (h : InLaps s w n t) :
    InLaps s (.puts p) (n + 1) (t.putsFrom p) := by
  have hlap := h.putString (bytes := putsBytes) (fun _ => le_rfl) p (.puts p)
  obtain ⟨bs, rfl, -⟩ := h
  rwa [State.putsFrom_endless (s := (s.put bs).setPhase w) hpolls hmem]

theorem InLaps.putspFrom {w : Phase} {n : Nat} (hpolls : s.params.stringReadPolls = false)
    (hmem : ∀ a, lowByte (s.memPeek a) ≠ 0x00#8 ∧ highByte (s.memPeek a) ≠ 0x00#8) (p : Word) (h : InLaps s w n t) :
    InLaps s (.putsp p) (n + 1) (t.putspFrom p) := by
  have hlap := h.putString (bytes := putspBytes) (fun _ => Nat.le_succ 1) p (.putsp p)
  obtain ⟨bs, rfl, -⟩ := h
  rwa [State.putspFrom_endless (s := (s.put bs).setPhase w) hpolls hmem]

/-- A run whose every step is a lap. -/
theorem InLaps.run {w : Phase} {lap : State → State} (he : s.engine = .running)
    (hstep : ∀ {v : State}, v.engine = .running → v.phase = w → step v = .next (lap v))
    (hlap : ∀ {n v}, InLaps s w n v → InLaps s w (n + 1) (lap v)) :
    ∀ (k : Nat) {n : Nat} {t : State}, InLaps s w n t →
      ∃ t', Host.Core.run Sys2Proof.core k t = .next t' ∧ InLaps s w (n + k) t'
  | 0, _, t, h => ⟨t, rfl, h⟩
  | k + 1, n, t, h => by
    have hnext : step t = .next (lap t) := by
      obtain ⟨bs, rfl, -⟩ := h
      exact hstep he rfl
    rw [run_succ_of_next hnext, Nat.add_comm k 1, ← Nat.add_assoc]
    exact InLaps.run he hstep hlap k (hlap h)

/-- A routine that from its link on puts a lap a step runs on for ever, and leaves all but the output. -/
theorem endless_run {wait : Word → Phase} {p : Word} {lap : State → State} (he : s.engine = .running)
    (hstep : ∀ {v : State}, v.engine = .running → v.phase = wait p → step v = .next (lap v))
    (hlap : ∀ {w n v}, InLaps s.link w n v → InLaps s.link (wait p) (n + 1) (lap v)) (k : Nat) :
    ∃ t, Host.Core.run Sys2Proof.core k (lap s.link) = .next t ∧ t.engine = .running ∧ (∃ p, t.phase = wait p) ∧
      t.gpr = s.gpr.set (7 : Reg) ⟨s.pc, true⟩ ∧ t.mem = s.mem ∧ t.pc = s.pc ∧ t.cond = s.cond ∧
      s.console.output.length + 65536 * (k + 1) ≤ t.console.output.length := by
  obtain ⟨t, hrun, bs, rfl, hlen⟩ := InLaps.run (s := s.link) he hstep hlap k (hlap (.start s.link))
  refine ⟨_, hrun, he, ⟨p, rfl⟩, rfl, rfl, rfl, rfl, ?_⟩
  have hlaps : 65536 * (k + 1) ≤ bs.length := by rwa [Nat.zero_add, Nat.add_comm] at hlen
  simpa using hlaps

/-- Settles O51: the instruction makes the link and the first lap, and every step of the run is one lap more. -/
theorem endlessStringNeverEnds : Obligations.EndlessStringNeverEnds := by
  intro u s he hr0 hpolls
  obtain ⟨hputs, -⟩ := exec_of_linked_read (i := .puts u) (s := s) s.link.putsFrom rfl
  obtain ⟨hputsp, -⟩ := exec_of_linked_read (i := .putsp u) (s := s) s.link.putspFrom rfl
  exact ⟨fun hmem => ⟨_, hputs hr0, endless_run he step_of_puts (InLaps.putsFrom (s := s.link) hpolls hmem _)⟩,
    fun hmem => ⟨_, hputsp hr0, endless_run he step_of_putsp (InLaps.putspFrom (s := s.link) hpolls hmem _)⟩⟩

end Sys2Proof.Machine

/-! PROOFS. Halts and faults (spec/60_exceptions.md R250-R252). `exec_raises` says once where an instruction stops: by which
event, and in which state it raises it. -/

namespace Sys2Proof

/-- Under a legal map bits 15:12 of a Word are the value of the opcode of the instruction it decodes to (R91, R92). -/
theorem extractLsb'_opcode_of_decode {m : OpcodeMap} (hm : m.Legal) (w : Word) :
    w.extractLsb' 12 4 = m.value (Laws.EncodesOpcode.opcode (decode m w)) := by
  have hop : opcodeOf m w = Laws.EncodesOpcode.opcode (decode m w) := by
    rw [← opcodeOf_encode hm, encodeOfDecode m w hm]
  exact (OpcodeMap.opcode_eq_iff hm _ _).mp hop

namespace Machine

variable {i : Instr} {s t f b : State}

/-! ### The events and the state they are raised in -/

/-- The events of R250 that an instruction raises, each with the instructions it is listed for and its record (R251). -/
inductive Raises (s : State) : Instr → Engine → Prop
  | haltTrap (u : BitVec 4) : Raises s (.halt u) (.halted .haltTrap)
  | rti (u : BitVec 12) : Raises s (.rti u) (.halted (.invalidOpcode s.instrAddr (s.params.opcodeMap.value .rti)))
  | res (u : BitVec 12) : Raises s (.res u) (.halted (.invalidOpcode s.instrAddr (s.params.opcodeMap.value .res)))
  | unhandledTrap (u : BitVec 4) {vect : BitVec 8} (hv : definedVector vect = false) :
      Raises s (.trap u vect) (.halted (.unhandledTrap s.instrAddr vect))
  | unwritten {i : Instr} {r : Reg} (hr : r ∈ i.gprReads) (hw : s.gpr[r].written = false) :
      Raises s i (.faulted (.unwrittenRegister r) s.instrAddr)
  | unsetCond {n z p : Bool} (off9 : BitVec 9) (hmask : (n || z || p) = true) (hc : s.cond.written = false) :
      Raises s (.br n z p off9) (.faulted .unsetCond s.instrAddr)

/-- The state in which an instruction raises its halt or fault (R252): after the link of a TRAP or JSRR, and after HALT's
notice. -/
def raiseState (i : Instr) (s : State) : State :=
  match i with
  | .halt _ => (s.link.put s.params.haltNotice).flush
  | .jsrr _ _ _ | .trap _ _ | .getc _ | .out _ | .puts _ | .inp _ | .putsp _ => s.link
  | _ => s

theorem raiseState_prepared (i : Instr) (s : State) : Prepared i s (raiseState i s) := by
  cases i
  case halt => exact .delivered rfl _
  case jsrr | trap | getc | out | puts | inp | putsp => exact .linked List.mem_cons_self
  all_goals exact .unchanged

theorem raiseState_gpr_seven (h : i.isTrap = true ∨ ∃ hi base lo, i = .jsrr hi base lo) :
    (raiseState i s).gpr[(7 : Reg)] = ⟨s.pc, true⟩ := by
  rcases h with h | ⟨hi, base, lo, rfl⟩
  · cases i <;> cases h <;> exact State.link_gpr_seven
  · exact State.link_gpr_seven

theorem raiseState_of_not_linked (htrap : i.isTrap = false) (hjsrr : ∀ hi base lo, i ≠ .jsrr hi base lo) :
    raiseState i s = s := by
  cases i
  case jsrr => exact absurd rfl (hjsrr _ _ _)
  case trap | getc | out | puts | inp | putsp | halt => cases htrap
  all_goals rfl

theorem raiseState_console (h : ∀ u, i ≠ .halt u) : (raiseState i s).console = s.console := by
  cases i
  case halt => exact absurd rfl (h _)
  all_goals rfl

theorem Prepared.gpr_of_ne_seven (h : Prepared i s b) {r : Reg} (hr : r ≠ 7) : b.gpr[r] = s.gpr[r] := by
  cases h with
  | unchanged => rfl
  | linked | delivered => exact State.link_gpr_of_ne hr

theorem Prepared.input (h : Prepared i s b) : b.console.input = s.console.input := by
  cases h <;> rfl

/-! ### Where an instruction stops -/

/-- `t` is the state that `i` leaves by raising a halt or fault. -/
def Stopped (i : Instr) (s t : State) : Prop := ∃ e, Raises s i e ∧ t = (raiseState i s).enter e

/-- An instruction that runs on or meets an unwritten source is stopped only by that source. -/
theorem Stopped.of_read {r : Reg} (hstop : t.engine ≠ .running) (hr : r ∈ i.gprReads)
    (h : t = f ∨ (s.gpr[r].written = false ∧ t = (raiseState i s).enter (.faulted (.unwrittenRegister r) s.instrAddr)))
    (hf : f.engine = .running) : Stopped i s t := by
  rcases h with rfl | ⟨hw, h⟩
  · exact absurd hf hstop
  · exact ⟨_, .unwritten hr hw, h⟩

/-- An instruction that gives a result or meets an unwritten source is stopped only by that source. -/
theorem Stopped.of_operate {dr : Reg} (he : s.engine = .running) (hstop : t.engine ≠ .running) (hi : raiseState i s = s)
    (h : (∃ v, t = s.writeResult dr v) ∨
      ∃ r, r ∈ i.gprReads ∧ s.gpr[r].written = false ∧ t = s.unwrittenFault r) : Stopped i s t := by
  rcases h with ⟨v, rfl⟩ | ⟨r, hr, hw, rfl⟩
  · exact absurd he hstop
  · exact ⟨_, .unwritten hr hw, by rw [hi]; rfl⟩

/-- The stops of an instruction (R250): where it leaves RUNNING, it has raised one of its events. -/
theorem exec_stopped (hi : i.wellFormed = true) (he : s.engine = .running) (h : exec i s = .next t)
    (hstop : t.engine ≠ .running) : Stopped i s t := by
  have htouch (a : Word) : (s.touch a).engine = .running := (s.touch_engine a).trans he
  cases i
  case addReg => exact .of_operate he hstop rfl (execAddReg_inv h)
  case andReg => exact .of_operate he hstop rfl (execAndReg_inv h)
  case addImm => exact .of_operate he hstop rfl ((execAddImm_inv h).imp_right fun h => ⟨_, List.mem_cons_self, h⟩)
  case andImm => exact .of_operate he hstop rfl ((execAndImm_inv h).imp_right fun h => ⟨_, List.mem_cons_self, h⟩)
  case not => exact .of_operate he hstop rfl ((execNot_inv h).imp_right fun h => ⟨_, List.mem_cons_self, h⟩)
  case br =>
    rcases execBr_inv h with rfl | ⟨hmask, hc, rfl⟩
    · exact absurd he hstop
    · exact ⟨_, .unsetCond _ hmask hc, rfl⟩
  case jmp => exact .of_read hstop List.mem_cons_self (execJmp_inv h) he
  case ret => exact .of_read hstop List.mem_cons_self (execRet_inv h) he
  case jsrr => exact .of_read hstop List.mem_cons_self ((execJsrr_inv h).imp_right And.right) he
  case ldr => exact .of_read hstop List.mem_cons_self (execLdr_inv h) (htouch _)
  case st => exact .of_read hstop List.mem_cons_self (execSt_inv h) he
  case sti => exact .of_read hstop List.mem_cons_self (execSti_inv h) (htouch _)
  case str =>
    rcases execStr_inv h with rfl | ⟨r, hr, hw, rfl⟩
    · exact absurd he hstop
    · exact ⟨_, .unwritten hr hw, rfl⟩
  case out => exact .of_read hstop List.mem_cons_self (execOut_inv h) he
  case puts =>
    exact .of_read hstop List.mem_cons_self (execPuts_inv h) ((ScanEnd.putsFrom s.link _).core.engine.trans he)
  case putsp =>
    exact .of_read hstop List.mem_cons_self (execPutsp_inv h) ((ScanEnd.putspFrom s.link _).core.engine.trans he)
  case trap =>
    have hv := (Bool.not_eq_true' _).mp hi
    exact ⟨_, .unhandledTrap _ hv, execTrap_inv hv h⟩
  case halt => exact ⟨_, .haltTrap _, execHalt_inv h⟩
  case rti => exact ⟨_, .rti _, execRti_inv h⟩
  case res => exact ⟨_, .res _, execRes_inv h⟩
  case jsr => rw [execJsr_inv h] at hstop; exact absurd he hstop
  case lea => rw [execLea_inv h] at hstop; exact absurd he hstop
  case ld => rw [execLd_inv h] at hstop; exact absurd (htouch _) hstop
  case ldi => rw [execLdi_inv h] at hstop; exact absurd ((State.touch_engine _ _).trans (htouch _)) hstop
  case getc =>
    obtain ⟨-, -, -, hengine, -⟩ := s.link.takeInput_frame false .getc
    rw [execGetc_inv h, hengine] at hstop
    exact absurd he hstop
  case inp =>
    obtain ⟨-, -, -, hengine, -⟩ := ((s.link.put s.params.inPrompt).flush).takeInput_frame true .inp
    rw [execInp_inv h, hengine] at hstop
    exact absurd he hstop

/-- Settles O11: entering the stop changes the engine alone, so all else is `raiseState`'s. -/
theorem haltEntryChangesNothingElse : Obligations.HaltEntryChangesNothingElse := by
  intro i s t hi he h hstop
  obtain ⟨e, -, rfl⟩ := exec_stopped hi he h hstop
  have hprep := raiseState_prepared i s
  obtain ⟨hpc, hcond, hmem, -, hphase, hparams, habort⟩ := hprep.frame
  refine ⟨hpc, hcond, hmem, hphase, hparams, habort, hprep.input, fun _ => hprep.gpr_of_ne_seven, raiseState_gpr_seven,
    fun ⟨htrap, hjsrr⟩ => ?_, ?_, raiseState_console⟩
  · rw [raiseState_of_not_linked htrap hjsrr]; rfl
  · rintro ⟨u, rfl⟩; rfl

/-! ### Where a step stops -/

/-- A step that leaves RUNNING takes the abort, is stopped by the reserved-bits check, or runs an instruction that raises
an event. -/
theorem step_stopped (h : step s = .next t) (hstop : t.engine ≠ .running) :
    (s.abortSignal = true ∧ s.phase.scanning = false ∧ t.engine = .halted .aborted) ∨
      (s.abortSignal = false ∧ s.phase = .idle ∧
        ((s.params.reservedBits = .fault ∧ (decode s.params.opcodeMap s.fetch.1).standardBits = false ∧
            t.engine = .faulted .reservedBits s.pc) ∨
          Raises s.fetch.2 (decode s.params.opcodeMap s.fetch.1) t.engine)) := by
  obtain ⟨he, ⟨ha, hp, rfl⟩ | ⟨ha, hp, hbits, rfl⟩ | ⟨ha, hp, -, hexec⟩ | ⟨-, -, rfl⟩ | ⟨-, -, rfl⟩ | ⟨p, -, rfl⟩ |
    ⟨p, -, rfl⟩⟩ := step_cases h
  · exact .inl ⟨ha, hp, rfl⟩
  · rw [State.reservedBitsStop_iff, State.fetch_params] at hbits
    obtain ⟨hpolicy, hbits⟩ := hbits
    exact .inr ⟨ha, hp, .inl ⟨hpolicy, hbits, rfl⟩⟩
  · have hfetch : s.fetch.2.engine = .running := (s.touch_engine _).trans he
    obtain ⟨e, hraises, rfl⟩ := exec_stopped (everyWordDecodesWellFormed _ _) hfetch hexec hstop
    exact .inr ⟨ha, hp, .inr hraises⟩
  · obtain ⟨-, -, -, hengine, -⟩ := s.takeInput_frame false .getc
    exact absurd (hengine.trans he) hstop
  · obtain ⟨-, -, -, hengine, -⟩ := s.takeInput_frame true .inp
    exact absurd (hengine.trans he) hstop
  · exact absurd ((ScanEnd.putsFrom s p).core.engine.trans he) hstop
  · exact absurd ((ScanEnd.putspFrom s p).core.engine.trans he) hstop

/-- Settles O10: the events of the instruction are raised after the fetch, which leaves the registers and COND and
makes the recorded address the PC before it; the recorded opcode is read by `extractLsb'_opcode_of_decode`. -/
theorem eventsThatEndARun : Obligations.EventsThatEndARun := by
  intro s t hm _ h hstop w i
  rcases step_stopped h hstop with haborted | ⟨ha, hp, ⟨hpolicy, hbits, ht⟩ | hraises⟩
  · exact .inl haborted
  · exact .inr ⟨ha, hp, .inr (.inr (.inr (.inr (.inr (.inr ⟨hpolicy, hbits, ht⟩)))))⟩
  · refine .inr ⟨ha, hp, ?_⟩
    have hop : w.extractLsb' 12 4 = s.params.opcodeMap.value (Laws.EncodesOpcode.opcode i) :=
      extractLsb'_opcode_of_decode hm w
    have hgpr : s.fetch.2.gpr = s.gpr := s.touch_gpr s.pc
    have hcond : s.fetch.2.cond = s.cond := s.touch_cond s.pc
    change Raises s.fetch.2 i t.engine at hraises
    generalize t.engine = e at hraises ⊢
    clear_value i
    cases hraises with
    | haltTrap u => exact .inl ⟨u, rfl, rfl⟩
    | rti u => exact .inr (.inl ⟨u, rfl, by rw [State.fetch_instrAddr, State.fetch_params, hop]; rfl⟩)
    | res u => exact .inr (.inr (.inl ⟨u, rfl, by rw [State.fetch_instrAddr, State.fetch_params, hop]; rfl⟩))
    | @unhandledTrap u v hv => exact .inr (.inr (.inr (.inl ⟨u, v, rfl, hv, by rw [State.fetch_instrAddr]⟩)))
    | @unwritten _ r hr hw =>
      rw [hgpr] at hw
      exact .inr (.inr (.inr (.inr (.inl ⟨r, hr, hw, by rw [State.fetch_instrAddr]⟩))))
    | @unsetCond n z p off9 hmask hc =>
      rw [hcond] at hc
      exact .inr (.inr (.inr (.inr (.inr (.inl ⟨n, z, p, off9, rfl, hmask, hc, by rw [State.fetch_instrAddr]⟩)))))

end Machine

end Sys2Proof
